-- ==== Sys2Proof/Config.lean ====
section
/-! DEFINITION. The parameters the spec fixes (R7), those it decides (R8), and the one free value of the model
(93_implementation_defined.md U3). -/
namespace Sys2Proof.Config

/-- `VALUE_MAX` = 2^53 - 1 (R7). -/
@[simp] def valueMax : Nat := 9007199254740991
/-- `LIMB_BITS` (R7). -/
@[simp] def limbBits : Nat := 32
/-- `LIMB_MOD` = 2^32 (R7). -/
@[simp] def limbMod : Nat := 4294967296
/-- `U32_MAX` (R7). -/
@[simp] def u32Max : Nat := 4294967295
/-- `HIGH_MAX` = 2^21 - 1 (R7). -/
@[simp] def highMax : Nat := 2097151
/-- `OUT53_LEN` (R7). -/
@[simp] def out53Len : Nat := 8
/-- `OUT16_LEN` (R7). -/
@[simp] def out16Len : Nat := 2
/-- `U16_MAX` (R7). -/
@[simp] def u16Max : Nat := 65535
/-- `OFFSET_DEFAULT` (R7, R49). -/
@[simp] def offsetDefault : Nat := 0
/-- `LOW_OFF` (R7). -/
@[simp] def lowOff : Nat := 0
/-- `HIGH_OFF` (R7). -/
@[simp] def highOff : Nat := 4
/-- `OFFSET_W` (R8, decision D5). -/
@[simp] def offsetW : Nat := 32
/-- `LEN_W` (R8, decision D6). -/
@[simp] def lenW : Nat := 32

/-- `OOB_PARTIAL` (93_implementation_defined.md U3): false is the spec's default, and rule R74 is what it gives.
`Machine.raiseOutOfBounds` is written for both values. -/
@[simp] def oobPartial : Bool := false

/-- The free value of U3, read only where `OOB_PARTIAL` is true: whether byte `i` of the low word landed before the
high word's write failed. `k` is the number of responses the host had when the command failed, so that two failures are
free of each other. It has no body: nothing is known of it (log entry 5). -/
opaque lowByteLands (k i : Nat) : Bool

end Sys2Proof.Config
end

