-- ==== Sys2Proof/Word.lean ====
section
/-! DEFINITION. The widths of the block's ports and limbs (R7, R20, R21, R43, R52) and the domain `Num` of the value
operand (R10). No arithmetic of the block stands here: see Machine/Ops.lean and Machine/Operands.lean. -/
namespace Sys2Proof

/-- A byte is a u8 (R9). -/
abbrev Byte := BitVec 8

/-- A limb: "one fixed-width (32-bit) portion of a larger integer value" (R7, R15). -/
abbrev Word := BitVec 32

/-- The `value` port: 64 bits, a binary64 word (R20, R47). -/
abbrev ValueWord := BitVec 64

/-- A command: the four command ports written as one 130-bit `CMD` word (R43). -/
abbrev CmdWord := BitVec 130

/-- A response: the response ports written as one 134-bit word (R52). -/
abbrev ResponseWord := BitVec 134

/-- The operand domain `Num` of R10: a rational number, or one of the three non-finite cases. -/
inductive Num where
  | fin (q : Rat)
  | posInf
  | negInf
  | nan
deriving DecidableEq, Repr

end Sys2Proof
end

