-- ==== Sys2Proof/Syntax.lean ====
section
/-! DEFINITION. The block's instruction set: the closed set of four commands (R3, R14, R44). -/
namespace Sys2Proof

/-- One constructor per row of spec/opcode_table.json, with the operand fields the operation reads (R44). `value` is
the 64-bit word on the value port; what it denotes is `Machine.val` (R47). `offset` and `bufLen` are the natural
numbers R55 gives. BUF itself is no field of the command word: it is on the memory port (R22, `State.memPort`). -/
inductive Instr where
  /-- `op` = 00 (R60); `splitUnsigned53` is its other name (R54). -/
  | uintHighLow (value : ValueWord)
  /-- `op` = 01 (R64). -/
  | encodeUInt53LE (value : ValueWord)
  /-- `op` = 10 (R67). -/
  | encodeUInt16BE (value : ValueWord)
  /-- `op` = 11 (R71). -/
  | writeUInt64LE (value : ValueWord) (offset bufLen : Nat)
deriving DecidableEq, Repr

end Sys2Proof
end

