-- ==== Sys2Proof/WellFormed.lean ====
section
/-! DEFINITION. Which terms of `Instr` the command ports can carry (R20, R49, R50). -/
namespace Sys2Proof

/-- The `offset` port is `OFFSET_W` bits wide and the `buf_len` port `LEN_W` bits (R8, R49, R50). Every 64-bit value
word is legal (R45), so it needs no check. -/
def Instr.wellFormed : Instr → Bool
  | .uintHighLow _ => true
  | .encodeUInt53LE _ => true
  | .encodeUInt16BE _ => true
  | .writeUInt64LE _ offset bufLen => decide (offset < 2 ^ Config.offsetW) && decide (bufLen < 2 ^ Config.lenW)

end Sys2Proof
end

