-- ==== Sys2Proof/Decode.lean ====
section
/-! DEFINITION. The decoder of the 130-bit `CMD` word (R43, R44, R47, R49, R50, R55), and after it the encoder. -/
namespace Sys2Proof

/-- Bits 129:128 (R43). -/
def opField (w : CmdWord) : BitVec 2 := w.extractLsb' 128 2
/-- Bits 127:64 (R43). -/
def valueField (w : CmdWord) : ValueWord := w.extractLsb' 64 64
/-- Bits 63:32 (R43). -/
def offsetField (w : CmdWord) : BitVec 32 := w.extractLsb' 32 32
/-- Bits 31:0 (R43). -/
def bufLenField (w : CmdWord) : BitVec 32 := w.extractLsb' 0 32

/-- R55: total, and it refuses no 130-bit word: the four values of `op` are the four operations (R44, R45). For
`op` = 00, 01, 10 the fields `offset` and `buf_len` are not read (R46). The last branch is `op` = 11. -/
def decode (w : CmdWord) : Instr :=
  if opField w = 0b00#2 then .uintHighLow (valueField w)
  else if opField w = 0b01#2 then .encodeUInt53LE (valueField w)
  else if opField w = 0b10#2 then .encodeUInt16BE (valueField w)
  else .writeUInt64LE (valueField w) (offsetField w).toNat (bufLenField w).toNat

/-- Why a bit pattern is no command. -/
inductive DecodeError where
  /-- A bit above bit 129 is set: the four ports carry 130 bits (R43), and a model gives no fifth operation a meaning
  (R45). -/
  | widerThanCommandPorts
deriving DecidableEq, Repr

/-- The decoder on any pattern of bits, given as a number: one that the ports cannot carry is rejected by name. -/
def decodeBits (n : Nat) : Except DecodeError Instr :=
  if n < 2 ^ 130 then .ok (decode (BitVec.ofNat 130 n)) else .error .widerThanCommandPorts

/-- The decoder on a word of `nbits` bits numbered as spec/opcode_table.json numbers them, the bits above `nbits`
zero. -/
def decodeTableWord (nbits w : Nat) : Option Instr :=
  (decodeBits (w % 2 ^ nbits)).toOption

/-- The four ports side by side (R43). -/
def packCmd (op : BitVec 2) (value : ValueWord) (offset bufLen : BitVec 32) : CmdWord :=
  op ++ value ++ offset ++ bufLen

/-- The listing word of a command: the unread fields are written as zero (R43, R44, R46). Of an ill-formed term, whose
`offset` or `bufLen` the ports cannot carry, the operand is reduced modulo 2^32: DESIGN CHOICE, unsafe (log entry 13). -/
def encode : Instr → CmdWord
  | .uintHighLow value => packCmd 0b00#2 value 0#32 0#32
  | .encodeUInt53LE value => packCmd 0b01#2 value 0#32 0#32
  | .encodeUInt16BE value => packCmd 0b10#2 value 0#32 0#32
  | .writeUInt64LE value offset bufLen => packCmd 0b11#2 value (BitVec.ofNat 32 offset) (BitVec.ofNat 32 bufLen)

/-- A command word with its unread fields zeroed, as listings write it (R46). -/
def listingWord (w : CmdWord) : CmdWord :=
  if opField w = 0b11#2 then w else packCmd (opField w) (valueField w) 0#32 0#32

end Sys2Proof
end

