-- ==== Sys2Proof/Machine/State.lean ====
section
/-! DEFINITION. The state: the block, which holds nothing (R16), and what stands around it: the caller's buffers
(R28), the buffer on the memory port (R22), what the host still has to do (R102, R104), the response ports (R21) and the
host's record of the run (R92, R103). Plain data throughout. -/
namespace Sys2Proof.Machine

/-- The three error conditions, the complete list (R76). They carry nothing but their kind (R82). -/
inductive ErrorCondition where
  /-- R77. -/
  | rangeViolation
  /-- R78. -/
  | nonIntegerViolation
  /-- R79. -/
  | outOfBounds
deriving DecidableEq, Repr

/-- The abstract response of R14. A port that is not valid has no field here (R21, decision D18). -/
inductive Response where
  /-- From `uintHighLow` only; high first (R14). -/
  | pair (high low : Word)
  /-- From the two encode operations only: 8 or 2 bytes, a value of its own that aliases nothing (R23, R69). -/
  | bytes (b : List Byte)
  /-- From `writeUInt64LE` only. -/
  | done
  /-- From any operation: `raise E` (R80). -/
  | fault (e : ErrorCondition)
deriving DecidableEq, Repr

/-- Bytes by address, in the canonical form `Memory.wf` of Machine/Ops.lean: addresses strictly rising. An unlisted
address has no value (log entry 2). -/
abbrev Memory := List Host.Cell

/-- A caller-owned buffer BUF (R28): its true capacity in bytes (R29) and its bytes. -/
structure Buffer where
  capacity : Nat
  cells    : Memory
deriving DecidableEq, Repr

/-- A buffer's name (R53, R104): the host tells its buffers apart by it, the block never sees it. -/
abbrev BufName := Nat

/-- One thing that happens at the block's boundary (R89, R102). -/
inductive Access where
  /-- The host drives a command word on the ports of an idle block, with a buffer on the memory port or none. -/
  | command (word : CmdWord) (buf : Option BufName)
  /-- The host stores a byte in a buffer of its own. -/
  | hostWrite (buf : BufName) (addr : Nat) (byte : Byte)
  /-- The host reads a byte of a buffer of its own. -/
  | hostRead (buf : BufName) (addr : Nat)
  /-- The host resets the block. -/
  | reset
deriving DecidableEq, Repr

/-- The whole machine. -/
structure State where
  /-- What the block itself holds from one command to the next: nothing, the unit type (R16, R17, R18, R25). -/
  block     : Unit
  /-- The buffer the host has put on the memory port for the command under way (R22), none where it needs none. -/
  memPort   : Option BufName
  /-- The host's buffers by name (R28, R104), names strictly rising. -/
  buffers   : List (BufName × Buffer)
  /-- What is still to happen, in order (R40, R104): the accesses of one entry happen at the same time (R89), each
  command among them on a block of its own. An ordinary program has one access in each entry. -/
  queue     : List (List Access)
  /-- What the response ports of the blocks that have just answered show (R21), none where no port is valid (R26). -/
  responses : List Response
  /-- The host's record of the run: every response, in order (R92, R103). -/
  record    : List Response
deriving DecidableEq, Repr

/-- What stops the machine. No command raises one: every command ends with a response (R105), and the error conditions
of R76 are responses. -/
inductive Fault where
  /-- Raised by a host access at an address its buffer does not have: "every address `≥ buf_len` does not exist"
  (R39). Safe: the model stops, and nothing is claimed of the host's own mistake. -/
  | addressOutsideBuffer
deriving DecidableEq, Repr

/-- What the spec gives no meaning (93_implementation_defined.md, treatment `refuse`). -/
inductive Refusal where
  /-- Raised by exec's arm of an instruction that has no meaning yet. Safe. -/
  | notModelled (mnemonic : String)
  /-- Raised by `writeUInt64LE` whose `buf_len` is larger than the memory attached: "assumed never" (R102, U5).
  Safe. -/
  | falseCapacity
  /-- Raised by accesses of one time that meet in a command's window (R89 (3), R97, U4). Safe. -/
  | overlappingAccess
  /-- Raised by a reset at the time of a command: "reset during a step" is assumed never (R102, U11). Safe. -/
  | resetDuringStep
deriving DecidableEq, Repr

/-- The machine right after reset (R26, R93, R94): no response port is valid, nothing has been issued, and nothing has
been attached. The host's side of it is a DESIGN CHOICE, unsafe: log entries 3 and 4. -/
def State.reset : State where
  block     := ()
  memPort   := none
  buffers   := []
  queue     := []
  responses := []
  record    := []

end Sys2Proof.Machine
end

