-- ==== Sys2Proof/Machine/Ops.lean ====
section
/-! DEFINITION. The operations every meaning is made of: sparse lists by key, memory, byte orders (R11), the write
primitive (R31), the buffer on the memory port (R22), answering a command (R14) and raising an error condition (R80),
and which accesses of one time exclude each other (R89, R97). -/
namespace Sys2Proof.Machine

/-! ### Lists by key, in canonical form -/

/-- The value listed under a key. -/
def lookupKey {α : Type} : List (Nat × α) → Nat → Option α
  | [], _ => none
  | (k, x) :: rest, n => if n = k then some x else lookupKey rest n

/-- The list with one value set, in the order of the keys. -/
def insertKey {α : Type} : List (Nat × α) → Nat → α → List (Nat × α)
  | [], n, v => [(n, v)]
  | (k, x) :: rest, n, v =>
    if n < k then (n, v) :: (k, x) :: rest
    else if n = k then (n, v) :: rest
    else (k, x) :: insertKey rest n v

/-- The canonical form: keys strictly rising. -/
abbrev keysRise {α : Type} (l : List (Nat × α)) : Prop := (l.map Prod.fst).Pairwise (· < ·)

/-! ### Memory -/

/-- What an unlisted address reads as: no value (DESIGN CHOICE, safe: log entry 2). -/
def Memory.unlisted : Option Byte := none

/-- The byte at an address. -/
def Memory.read (m : Memory) (addr : Nat) : Option Byte :=
  match lookupKey m addr with
  | some b => some b
  | none => Memory.unlisted

/-- Storing a byte. Every byte differs from what an unlisted address reads as, so no entry is ever removed. -/
def Memory.write (m : Memory) (addr : Nat) (b : Byte) : Memory := insertKey m addr b

/-- The canonical form of a memory. -/
abbrev Memory.wf (m : Memory) : Prop := keysRise m

/-- `MemRead(addr, 1)` of R12. No operation calls it (R35): the host and the claims do. -/
def Buffer.readByte (b : Buffer) (addr : Nat) : Option Byte := b.cells.read addr

/-- `BUF[addr] <- byte`. -/
def Buffer.writeByte (b : Buffer) (addr : Nat) (byte : Byte) : Buffer :=
  { b with cells := b.cells.write addr byte }

/-- `MemWrite(addr, length(B), B)` (R31): `B[0]` to `addr`, the next byte to the next address. Its precondition
`addr + n ≤ buf_len` is checked by the operation rule before (R72), so it has no failure of its own. -/
def Buffer.memWrite (b : Buffer) (addr : Nat) : List Byte → Buffer
  | [] => b
  | byte :: rest => (b.writeByte addr byte).memWrite (addr + 1) rest

/-- `MemRead(addr, n)` (R12), for the claims: none where a byte has no value. -/
def Buffer.memRead (b : Buffer) (addr : Nat) : Nat → Option (List Byte)
  | 0 => some []
  | n + 1 =>
    match b.readByte addr, b.memRead (addr + 1) n with
    | some byte, some rest => some (byte :: rest)
    | _, _ => none

/-- A buffer lists its bytes in canonical form, and only addresses it has (R28, R39). -/
abbrev Buffer.wf (b : Buffer) : Prop := Memory.wf b.cells ∧ ∀ c ∈ b.cells, c.1 < b.capacity

/-- What stands under a name the host has not used: no memory at all (DESIGN CHOICE, safe: log entry 12). -/
def Buffer.absent : Buffer where
  capacity := 0
  cells    := []

/-! ### Byte orders (R11) -/

/-- `le32(w)`: least significant byte first. -/
def le32 (w : Word) : List Byte :=
  [w.extractLsb' 0 8, w.extractLsb' 8 8, w.extractLsb' 16 8, w.extractLsb' 24 8]

/-- `be16(h)`: most significant byte first. -/
def be16 (h : BitVec 16) : List Byte :=
  [h.extractLsb' 8 8, h.extractLsb' 0 8]

/-- `dec_le64(B)`, the sum of `B[i] * 2^(8*i)`. Not an operation of the block (R5 (c)): the claims use it. -/
def decLe64 : List Byte → Nat
  | [] => 0
  | b :: rest => b.toNat + 256 * decLe64 rest

/-- `dec_be16(B)` = `B[0] * 256 + B[1]`; the claims use it. -/
def decBe16 : List Byte → Nat
  | [b0, b1] => b0.toNat * 256 + b1.toNat
  | _ => 0

/-! ### The buffers of the state -/

/-- The buffer of a name. -/
def State.buffer (s : State) (n : BufName) : Buffer :=
  match lookupKey s.buffers n with
  | some b => b
  | none => Buffer.absent

/-- The state with one buffer replaced. -/
def State.setBuffer (s : State) (n : BufName) (b : Buffer) : State :=
  { s with buffers := insertKey s.buffers n b }

/-- The memory on the memory port (R22): the buffer the host attached, or none at all. -/
def State.attached (s : State) : Buffer :=
  match s.memPort with
  | some n => s.buffer n
  | none => Buffer.absent

/-- The state with the memory on the memory port replaced. -/
def State.setAttached (s : State) (b : Buffer) : State :=
  match s.memPort with
  | some n => s.setBuffer n b
  | none => s

/-- The host puts a buffer on the memory port, or none. -/
def State.withPort (s : State) (p : Option BufName) : State := { s with memPort := p }

/-! ### Ending a command -/

/-- The response is driven on the response ports, and the host records it (R21, R92). -/
def State.deliver (s : State) (r : Response) : State :=
  { s with responses := s.responses ++ [r], record := s.record ++ [r] }

/-- `return r` (R12): the command ends successfully. -/
def answer (r : Response) (s : State) : Host.Outcome State Fault Refusal :=
  .next (s.deliver r)

/-- `raise E` (R80), the one operation that takes an error condition: the command ends, its response is `Fault(E)` and
nothing else, no byte of a buffer has changed, nothing is saved and control goes nowhere. There is no return from it:
the block takes the next command (R85). -/
def raise (e : ErrorCondition) (s : State) : Host.Outcome State Fault Refusal :=
  .next (s.deliver (.fault e))

/-! ### Accesses of one time (R89, R97, R102) -/

/-- Is it a step of a block? -/
def Access.isCommand : Access → Bool
  | .command _ _ => true
  | .hostWrite _ _ _ => false
  | .hostRead _ _ => false
  | .reset => false

/-- Is it a reset? -/
def Access.isReset : Access → Bool
  | .command _ _ => false
  | .hostWrite _ _ _ => false
  | .hostRead _ _ => false
  | .reset => true

/-- The bytes an access touches: buffer, first address, how many. For `writeUInt64LE` the window (R30), whether or not
the command then faults; the other three commands touch no buffer (R23). -/
def Access.span : Access → Option (BufName × Nat × Nat)
  | .command word (some n) =>
    match decode word with
    | .writeUInt64LE _ offset _ => some (n, offset, 8)
    | .uintHighLow _ => none
    | .encodeUInt53LE _ => none
    | .encodeUInt16BE _ => none
  | .command _ none => none
  | .hostWrite n addr _ => some (n, addr, 1)
  | .hostRead n addr => some (n, addr, 1)
  | .reset => none

/-- Two spans share a byte. -/
def spansMeet (x y : BufName × Nat × Nat) : Bool :=
  x.1 == y.1 && decide (x.2.1 < y.2.1 + y.2.2) && decide (y.2.1 < x.2.1 + x.2.2)

/-- Two accesses that the host must order (R89 (3)): a byte of a command's window is touched by both. -/
def Access.meets (a b : Access) : Bool :=
  (a.isCommand || b.isCommand) &&
    match a.span, b.span with
    | some x, some y => spansMeet x y
    | some _, none => false
    | none, some _ => false
    | none, none => false

/-- Some two accesses of one time must have been ordered by the host (R97). -/
def overlapping : List Access → Bool
  | [] => false
  | a :: rest => rest.any a.meets || overlapping rest

/-- A reset at the time of a command (R102, U11). An access names no block, so a reset beside a command counts whichever
block it is of: of another block, it is a DESIGN CHOICE, safe (log entry 15). -/
def resetInStep (beat : List Access) : Bool :=
  beat.any Access.isReset && beat.any Access.isCommand

/-! ### Presenting one command -/

/-- The buffer name a command issued from outside is attached to. -/
def loaderBuffer : BufName := 0

/-- The host owns a buffer of at least `cap` bytes under a name (R96): one that is too short is lengthened, its bytes
kept. -/
def State.ensureCapacity (s : State) (n : BufName) (cap : Nat) : State :=
  if cap ≤ (s.buffer n).capacity then s else s.setBuffer n { s.buffer n with capacity := cap }

/-- The memory port a command word needs, and how long the buffer on it must be: only `writeUInt64LE` needs one
(R96). -/
def portFor (word : CmdWord) : Option (BufName × Nat) :=
  match decode word with
  | .writeUInt64LE _ _ bufLen => some (loaderBuffer, bufLen)
  | .uintHighLow _ => none
  | .encodeUInt53LE _ => none
  | .encodeUInt16BE _ => none

/-- The host issues one command, ahead of what it had planned, with a buffer of the capacity the command states on the
memory port (R96, R102). -/
def State.present (s : State) (word : CmdWord) : State :=
  match portFor word with
  | some (n, cap) =>
    let t := s.ensureCapacity n cap
    { t with queue := [.command word (some n)] :: t.queue }
  | none => { s with queue := [.command word none] :: s.queue }

end Sys2Proof.Machine
end

