-- ==== Sys2Proof/Machine/Operands.lean ====
section
/-! DEFINITION. The value operand: what a `value` word denotes (R47), the two validations (R57, R58, R66), and the
classification of a word by its bits alone (R48). -/
namespace Sys2Proof.Machine

/-! ### The binary64 word on the value port (R47) -/

/-- `s = value[63]`. -/
def signField (w : ValueWord) : BitVec 1 := w.extractLsb' 63 1
/-- `e = value[62:52]`. -/
def expField (w : ValueWord) : BitVec 11 := w.extractLsb' 52 11
/-- `f = value[51:0]`. -/
def fracField (w : ValueWord) : BitVec 52 := w.extractLsb' 0 52

/-- `m * 2^(k - 1075)`, exactly: an integer from `k = 1075` on, a fraction below it. -/
def scaled (m k : Nat) : Rat :=
  if 1075 ≤ k then mkRat (m * 2 ^ (k - 1075) : Nat) 1 else mkRat m (2 ^ (1075 - k))

/-- The magnitude of a finite word: `f * 2^(-1074)` where `e = 0`, else `(2^52 + f) * 2^(e - 1075)` (R47). -/
def magnitude (e f : Nat) : Rat :=
  if e = 0 then if f = 0 then 0 else scaled f 1 else scaled (2 ^ 52 + f) e

/-- `val(value)` (R47): the `Num` a value word denotes. Negative zero denotes 0 (decision D17). The layout is
PRESUMED by the spec itself (GK1; log entry 9). -/
def val (w : ValueWord) : Num :=
  let e := (expField w).toNat
  let f := (fracField w).toNat
  if e = 2047 then
    if f ≠ 0 then .nan else if signField w = 0#1 then .posInf else .negInf
  else if signField w = 0#1 then .fin (magnitude e f) else .fin (-magnitude e f)

/-! ### Validation -/

/-- The checks `Validate53` and `Validate16` share, in their order: range first, then integrality (R57, R58, R66,
R83). An accepted operand is from here on a natural number, at most `max`. -/
def validate (max : Nat) : Num → Except ErrorCondition Nat
  | .nan => .error .rangeViolation
  | .posInf => .error .rangeViolation
  | .negInf => .error .rangeViolation
  | .fin q =>
    if q < 0 then .error .rangeViolation
    else if (max : Rat) < q then .error .rangeViolation
    else if q ≠ (q.floor : Rat) then .error .nonIntegerViolation
    else .ok q.floor.toNat

/-- `Validate53` (R57, R58), used by `uintHighLow`, `encodeUInt53LE` and `writeUInt64LE`. -/
def validate53 (v : Num) : Except ErrorCondition Nat := validate Config.valueMax v

/-- `Validate16` (R66, decision D7), used by `encodeUInt16BE`. -/
def validate16 (v : Num) : Except ErrorCondition Nat := validate Config.u16Max v

/-! ### The same verdict, from the bits alone (R48) -/

/-- The table of R48, row by row, on the three fields of a word. -/
def classifyFields (s : BitVec 1) (e f : Nat) : Except ErrorCondition Nat :=
  if e = 0 ∧ f = 0 then .ok 0
  else if e = 2047 then .error .rangeViolation
  else if s = 1#1 then .error .rangeViolation
  else if 1076 ≤ e then .error .rangeViolation
  else if e ≤ 1022 then .error .nonIntegerViolation
  else if f % 2 ^ (1075 - e) ≠ 0 then .error .nonIntegerViolation
  else .ok ((2 ^ 52 + f) / 2 ^ (1075 - e))

/-- The verdict of Validate53 on a value word, by its bits (R48). No meaning uses it: a claim states that it agrees
with `validate53 (val w)`. -/
def classify (w : ValueWord) : Except ErrorCondition Nat :=
  classifyFields (signField w) (expField w).toNat (fracField w).toNat

/-- The word that denotes an integer of [0, 2^53 - 1] (R48, R53): the number's leading bit gives the exponent, the bits
below it the fraction. -/
def wordOfNat (n : Nat) : ValueWord :=
  if n = 0 then 0#64
  else (0#1 ++ BitVec.ofNat 11 (1023 + n.log2) ++ BitVec.ofNat 52 (n * 2 ^ (52 - n.log2)) : BitVec 64)

end Sys2Proof.Machine
end

