-- ==== Sys2Proof/Machine/Flags.lean ====
section
/-! DEFINITION. The block has no flags, condition codes or status registers (R18): no operation computes one. What
stands in their place is the `status` port and the other response ports (R21, R52, R81), here as functions of the
abstract response. Nothing of it is latched. -/
namespace Sys2Proof.Machine

/-- The code of a condition on the `status` port (R81). -/
def ErrorCondition.code : ErrorCondition → BitVec 2
  | .rangeViolation => 1#2
  | .nonIntegerViolation => 2#2
  | .outOfBounds => 3#2

/-- InvalidArgument is the class of the two validation conditions (R91). -/
def ErrorCondition.isInvalidArgument : ErrorCondition → Bool
  | .rangeViolation => true
  | .nonIntegerViolation => true
  | .outOfBounds => false

/-- Is it a `Fault` response? -/
def Response.isFault : Response → Bool
  | .pair _ _ => false
  | .bytes _ => false
  | .done => false
  | .fault _ => true

/-- The response ports of R21. A port that is not valid holds none: it has no defined value (decision D18). Of
`out_bytes` only the valid ones stand in the list. -/
structure ResponsePorts where
  status   : BitVec 2
  high     : Option Word
  low      : Option Word
  outLen   : Option (BitVec 4)
  outBytes : List Byte
deriving DecidableEq, Repr

/-- The ports that carry a response (R21). -/
def Response.ports : Response → ResponsePorts
  | .pair high low => { status := 0#2, high := some high, low := some low, outLen := some 0#4, outBytes := [] }
  | .bytes b => { status := 0#2, high := none, low := none, outLen := some (BitVec.ofNat 4 b.length), outBytes := b }
  | .done => { status := 0#2, high := none, low := none, outLen := some 0#4, outBytes := [] }
  | .fault e => { status := e.code, high := none, low := none, outLen := none, outBytes := [] }

/-! ### The response word (R52) -/

/-- Bits 133:132. -/
def statusField (w : ResponseWord) : BitVec 2 := w.extractLsb' 132 2
/-- Bits 131:100. -/
def highField (w : ResponseWord) : Word := w.extractLsb' 100 32
/-- Bits 99:68. -/
def lowField (w : ResponseWord) : Word := w.extractLsb' 68 32
/-- Bits 67:64. -/
def outLenField (w : ResponseWord) : BitVec 4 := w.extractLsb' 64 4
/-- `out_bytes[i]`, bits `8i+7 : 8i`. -/
def outByteField (w : ResponseWord) (i : Nat) : Byte := w.extractLsb' (8 * i) 8

/-- A port that is valid shows its value; one that is not valid may show anything. -/
def shows {n : Nat} (field : BitVec n) : Option (BitVec n) → Bool
  | none => true
  | some x => field == x

/-- The 134-bit word agrees with the ports on every port that is valid (R52): a relation and no function, for the
other bits have no defined value. -/
def ResponsePorts.shownBy (p : ResponsePorts) (w : ResponseWord) : Bool :=
  statusField w == p.status && shows (highField w) p.high && shows (lowField w) p.low &&
    shows (outLenField w) p.outLen &&
    (List.range p.outBytes.length).all fun i => shows (outByteField w i) p.outBytes[i]?

/-- The response a host that issued the operation `op` reads from a response word (R21, R52). -/
def readResponse (op : BitVec 2) (w : ResponseWord) : Response :=
  if statusField w = 1#2 then .fault .rangeViolation
  else if statusField w = 2#2 then .fault .nonIntegerViolation
  else if statusField w = 3#2 then .fault .outOfBounds
  else if op = 0b00#2 then .pair (highField w) (lowField w)
  else if op = 0b11#2 then .done
  else .bytes ((List.range (outLenField w).toNat).map (outByteField w))

end Sys2Proof.Machine
end

