-- ==== Sys2Proof/Machine/Split.lean ====
section
/-! DEFINITION. The split family (40_split.md): `Split53` (R59), `uintHighLow` (R60), and the source's own algorithm
(R61, informative). -/
namespace Sys2Proof.Machine

/-- `Split53(v) = (high, low)` of an accepted integer (R59); `high` is a number of at most 21 bits, written as a
u32. -/
def split53 (v : Nat) : Word × Word :=
  (BitVec.ofNat 32 (v / Config.limbMod), BitVec.ofNat 32 (v % Config.limbMod))

/-- `uintHighLow(v)` over the abstract operand (R60). -/
def uintHighLow (v : Num) (s : State) : Host.Outcome State Fault Refusal :=
  match validate53 v with
  | .error e => raise e s
  | .ok n => answer (.pair (split53 n).1 (split53 n).2) s

/-- `uintHighLow`, `op` = 00 (R60): the operand is what the value word denotes. -/
def execUintHighLow (value : ValueWord) (s : State) : Host.Outcome State Fault Refusal :=
  uintHighLow (val value) s

/-! ### The source's own algorithm (R61): no meaning uses it, a claim states that it equals `split53` -/

/-- `s`: the low-order 32 bits of `v` read as a two's-complement signed integer (R61, GK2). -/
def legacySigned (v : Nat) : Int := (BitVec.ofNat 32 v).toInt

/-- `low`: the signed word, corrected by 2^32 where it is negative (R61; 90_conflicts.md C3). -/
def legacyLow (v : Nat) : Int :=
  if 0 ≤ legacySigned v then legacySigned v else legacySigned v + 4294967296

/-- `high`: the exact quotient where `v` exceeds 32 bits, else 0 (R61). -/
def legacyHigh (v : Nat) : Int :=
  if (v : Int) > 4294967295 then ((v : Int) - legacyLow v) / 4294967296 else 0

end Sys2Proof.Machine
end

