-- ==== Sys2Proof/Machine/ToBuffer.lean ====
section
/-! DEFINITION. The toBuffer family (41_tobuffer.md): `encodeUInt53LE` (R64) and `encodeUInt16BE` (R67). Neither
touches a buffer (R69). -/
namespace Sys2Proof.Machine

/-- The eight bytes of an accepted integer: `le32(low) ++ le32(high)` (R64). -/
def bytes53 (v : Nat) : List Byte := le32 (split53 v).2 ++ le32 (split53 v).1

/-- `encodeUInt53LE(v)` over the abstract operand (R64). -/
def encodeUInt53LE (v : Num) (s : State) : Host.Outcome State Fault Refusal :=
  match validate53 v with
  | .error e => raise e s
  | .ok n => answer (.bytes (bytes53 n)) s

/-- `encodeUInt53LE`, `op` = 01 (R64). -/
def execEncodeUInt53LE (value : ValueWord) (s : State) : Host.Outcome State Fault Refusal :=
  encodeUInt53LE (val value) s

/-- `encodeUInt16BE(v)` over the abstract operand (R67). -/
def encodeUInt16BE (v : Num) (s : State) : Host.Outcome State Fault Refusal :=
  match validate16 v with
  | .error e => raise e s
  | .ok n => answer (.bytes (be16 (BitVec.ofNat 16 n))) s

/-- `encodeUInt16BE`, `op` = 10 (R67). -/
def execEncodeUInt16BE (value : ValueWord) (s : State) : Host.Outcome State Fault Refusal :=
  encodeUInt16BE (val value) s

end Sys2Proof.Machine
end

