-- ==== Sys2Proof/Machine/Write.lean ====
section
/-! DEFINITION. The offset-write family (42_write.md): `writeUInt64LE` (R71 to R74). -/
namespace Sys2Proof.Machine

/-- The two writes of R71: the low word at `offset`, the high word at `offset + 4`, both as natural numbers without
wrap-around (R30). -/
def writeWindow (b : Buffer) (offset n : Nat) : Buffer :=
  (b.memWrite (offset + Config.lowOff) (le32 (split53 n).2)).memWrite (offset + Config.highOff) (le32 (split53 n).1)

/-- Of the bytes given, those whose index is in the choice are stored, the first index being `i`. -/
def memWriteSome (landed : Nat → Bool) (b : Buffer) (addr i : Nat) : List Byte → Buffer
  | [] => b
  | byte :: rest =>
    memWriteSome landed (if landed i then b.writeByte (addr + i) byte else b) addr (i + 1) rest

/-- BUF after an `OutOfBounds` condition where `OOB_PARTIAL` is true: with room for the low word, each of its four bytes
may have landed, as `landed` says (93_implementation_defined.md U3). -/
def oobBuffer (landed : Nat → Bool) (b : Buffer) (offset bufLen n : Nat) : Buffer :=
  if offset + Config.highOff ≤ bufLen then memWriteSome landed b offset 0 (le32 (split53 n).2) else b

/-- The `OutOfBounds` condition (R72, R79), for both values of `OOB_PARTIAL`. With false, the spec's default, it is
`raise` and no more: BUF is unchanged (R74, decision D9). -/
def raiseOutOfBounds (oobPartial : Bool) (offset bufLen n : Nat) (s : State) : Host.Outcome State Fault Refusal :=
  if oobPartial = true then
    raise .outOfBounds
      (s.setAttached (oobBuffer (Config.lowByteLands s.record.length) s.attached offset bufLen n))
  else raise .outOfBounds s

/-- `writeUInt64LE(v, BUF, offset)` over the abstract operand (R71), BUF being the buffer on the memory port. The first
line is the host's duty: a `buf_len` larger than the memory attached has no move (R29, R102, U5). Then the value is
validated, then the bounds are checked, once and for the whole window (R72, R83). -/
def writeUInt64LE (v : Num) (offset bufLen : Nat) (s : State) : Host.Outcome State Fault Refusal :=
  if s.attached.capacity < bufLen then .refused .falseCapacity
  else
    match validate53 v with
    | .error e => raise e s
    | .ok n =>
      if bufLen < offset + Config.out53Len then raiseOutOfBounds Config.oobPartial offset bufLen n s
      else answer .done (s.setAttached (writeWindow s.attached offset n))

/-- `writeUInt64LE`, `op` = 11 (R71). -/
def execWriteUInt64LE (value : ValueWord) (offset bufLen : Nat) (s : State) : Host.Outcome State Fault Refusal :=
  writeUInt64LE (val value) offset bufLen s

end Sys2Proof.Machine
end

