-- ==== Sys2Proof/Machine/Dispatch.lean ====
section
/-! DEFINITION. Which meaning each constructor of Instr has: one arm each (R44). -/
namespace Sys2Proof.Machine

def exec (i : Instr) (s : State) : Host.Outcome State Fault Refusal :=
  match i with
  | .uintHighLow value => Sys2Proof.Machine.execUintHighLow value s
  | .encodeUInt53LE value => Sys2Proof.Machine.execEncodeUInt53LE value s
  | .encodeUInt16BE value => Sys2Proof.Machine.execEncodeUInt16BE value s
  | .writeUInt64LE value offset bufLen => Sys2Proof.Machine.execWriteUInt64LE value offset bufLen s

end Sys2Proof.Machine
end

