-- ==== Sys2Proof/Machine/Beat.lean ====
section
/-! DEFINITION. What one access does, and what the accesses of one time do (R40, R89, R102). -/
namespace Sys2Proof.Machine

/-- One access (R102). A command is decoded and run with its buffer on the memory port. The host's own accesses are not
seen by the block. Reset finds nothing to initialise: no response port is valid after it, no buffer is touched, none is
pending (R26, R93, R94). -/
def perform (a : Access) (s : State) : Host.Outcome State Fault Refusal :=
  match a with
  | .command word buf => exec (decode word) (s.withPort buf)
  | .hostWrite n addr byte =>
    if addr < (s.buffer n).capacity then .next (s.setBuffer n ((s.buffer n).writeByte addr byte))
    else .fault .addressOutsideBuffer
  | .hostRead n addr =>
    if addr < (s.buffer n).capacity then .next s else .fault .addressOutsideBuffer
  | .reset => .next { s with block := (), responses := [] }

/-- Accesses one after another, stopping at the first that stops. For accesses of one time that do not overlap, the
order in which they are listed decides no byte of a buffer (R89 (2)). -/
def performAll : List Access → State → Host.Outcome State Fault Refusal
  | [], s => .next s
  | a :: rest, s =>
    match perform a s with
    | .next t => performAll rest t
    | .fault r => .fault r
    | .refused r => .refused r

/-- The accesses of one time: refused where the host had to order them (R97) or where a reset falls in a step (U11). -/
def runBeat (beat : List Access) (s : State) : Host.Outcome State Fault Refusal :=
  if resetInStep beat = true then .refused .resetDuringStep
  else if overlapping beat = true then .refused .overlappingAccess
  else performAll beat s

/-- The next entry of the queue is taken, and the ports that showed the last response are no longer valid: a response
is "valid for that response only" (R21). -/
def State.takeBeat (s : State) (rest : List (List Access)) : State :=
  { s with queue := rest, responses := [] }

end Sys2Proof.Machine
end

