-- ==== Sys2Proof/Machine/Step.lean ====
section
/-! DEFINITION. One step: what the host has next happens; where it has nothing, nothing does (R102, R104). -/
namespace Sys2Proof.Machine

/-- One step. The block fetches nothing (R17): the commands are the host's, in its order. Between commands the block
does nothing (R102). -/
def step (s : State) : Host.Outcome State Fault Refusal :=
  match s.queue with
  | [] => .next s
  | beat :: rest => runBeat beat (s.takeBeat rest)

/-- The host presents one command next, its word given by its lowest `nbits` bits (DESIGN CHOICE: log
entry 3). -/
def State.withFetchWord (s : State) (nbits w : Nat) : State :=
  s.present (BitVec.ofNat 130 (w % 2 ^ nbits))

end Sys2Proof.Machine
end

