-- ==== Sys2Proof/Machine/Program.lean ====
section
/-! DEFINITION. The command notation (R53, R54) and programs (R104): a list of lines and the buffers they start
from, loaded as what the host has to do. -/
namespace Sys2Proof.Machine

/-- A line of the notation of R53, with the pseudo-forms of R54. A `value` stands as the binary64 word that denotes it
(R53). -/
inductive Line where
  | uintHighLow (value : ValueWord)
  | splitUnsigned53 (value : ValueWord)
  | encodeUInt53LE (value : ValueWord)
  | encodeUInt16BE (value : ValueWord)
  | writeUInt64LE (value : ValueWord) (buffer : BufName) (offset : Option Nat)
deriving DecidableEq, Repr

/-- The command a line stands for: an omitted offset is 0, `splitUnsigned53` is `uintHighLow` (R49, R54), and `buf_len`
is the true capacity of the buffer named (R29, R102). -/
def Line.instr (capacityOf : BufName → Nat) : Line → Instr
  | .uintHighLow value => .uintHighLow value
  | .splitUnsigned53 value => .uintHighLow value
  | .encodeUInt53LE value => .encodeUInt53LE value
  | .encodeUInt16BE value => .encodeUInt16BE value
  | .writeUInt64LE value buffer (some offset) => .writeUInt64LE value offset (capacityOf buffer)
  | .writeUInt64LE value buffer none => .writeUInt64LE value Config.offsetDefault (capacityOf buffer)

/-- The buffer a line names. -/
def Line.port : Line → Option BufName
  | .uintHighLow _ => none
  | .splitUnsigned53 _ => none
  | .encodeUInt53LE _ => none
  | .encodeUInt16BE _ => none
  | .writeUInt64LE _ buffer _ => some buffer

/-- A program (R104): named buffers with their lengths and initial bytes, and the lines in order. -/
structure Program where
  buffers : List (BufName × Buffer)
  lines   : List Line
deriving DecidableEq, Repr

/-- The start state of a program: the block as after reset, the buffers as the program gives them, and its commands to
be issued one at a time (R104). Its form is a DESIGN CHOICE (log entries 3, 4 and 13). An offset or a capacity of 2^32
or more, which the ports cannot carry (R49, R50, decision D5), is reduced modulo 2^32 by `encode`: a DESIGN CHOICE,
unsafe (log entry 13). -/
def Program.load (p : Program) : State :=
  let s := { State.reset with buffers := p.buffers }
  { s with queue := p.lines.map fun l => [.command (encode (l.instr fun n => (s.buffer n).capacity)) l.port] }

end Sys2Proof.Machine
end

