-- ==== Sys2Proof/Safety.lean ====
section
/-! DEFINITION. What the claims call well formed, honest and clean. -/
namespace Sys2Proof.Machine

/-- A byte sequence of a response has length 8 or 2 (R14). -/
def Response.wf : Response → Bool
  | .pair high _ => decide (high.toNat ≤ Config.highMax)
  | .bytes b => decide (b.length = Config.out53Len) || decide (b.length = Config.out16Len)
  | .done => true
  | .fault _ => true

/-- The invariant of the machine: buffers named once and in order, each in canonical form and within its capacity, and
every response of a shape R14 and R59 allow. -/
abbrev State.Inv (s : State) : Prop :=
  keysRise s.buffers ∧ (∀ b ∈ s.buffers, Buffer.wf b.2) ∧
    (∀ r ∈ s.responses, r.wf = true) ∧ (∀ r ∈ s.record, r.wf = true)

/-- An operand in the inclusive range [0, max]; the non-finite cases are in no range (R57, R66, decision D16). -/
def inRange (max : Nat) : Num → Prop
  | .fin q => 0 ≤ q ∧ q ≤ (max : Rat)
  | .posInf => False
  | .negInf => False
  | .nan => False

/-- An operand that is a mathematical integer (R10, R58). -/
def integral : Num → Prop
  | .fin q => ∃ z : Int, q = (z : Rat)
  | .posInf => False
  | .negInf => False
  | .nan => False

/-- The operands of a command that R27 names: `op`, `val(value)`, `offset` and `buf_len`, the last two zero where the
operation does not read them (R46). -/
def operandsOf : Instr → BitVec 2 × Num × Nat × Nat
  | .uintHighLow value => (0b00#2, val value, 0, 0)
  | .encodeUInt53LE value => (0b01#2, val value, 0, 0)
  | .encodeUInt16BE value => (0b10#2, val value, 0, 0)
  | .writeUInt64LE value offset bufLen => (0b11#2, val value, offset, bufLen)

/-- The duty of R102 for one command: the buffer attached is at least as long as the command says. -/
def honest (i : Instr) (s : State) : Bool :=
  match i with
  | .uintHighLow _ => true
  | .encodeUInt53LE _ => true
  | .encodeUInt16BE _ => true
  | .writeUInt64LE _ _ bufLen => decide (bufLen ≤ s.attached.capacity)

/-- The first access is a `writeUInt64LE` and the second, of another agent at the same time, touches a byte of its
window: another `writeUInt64LE` whose window meets it, or the host at an address in it (R89 (3), R97). -/
def touchesWindow (a b : Access) : Prop :=
  ∃ w n value offset bufLen, a = .command w (some n) ∧ decode w = .writeUInt64LE value offset bufLen ∧
    ((∃ w' value' offset' bufLen', b = .command w' (some n) ∧ decode w' = .writeUInt64LE value' offset' bufLen' ∧
        offset < offset' + 8 ∧ offset' < offset + 8) ∨
      (∃ addr byte, b = .hostWrite n addr byte ∧ offset ≤ addr ∧ addr < offset + 8) ∨
      (∃ addr, b = .hostRead n addr ∧ offset ≤ addr ∧ addr < offset + 8))

/-- What a host must check that cannot tolerate a fault (R98): the conditions of R57, R58, R66 and R72. -/
def conditionsMet : Instr → Prop
  | .uintHighLow value => inRange Config.valueMax (val value) ∧ integral (val value)
  | .encodeUInt53LE value => inRange Config.valueMax (val value) ∧ integral (val value)
  | .encodeUInt16BE value => inRange Config.u16Max (val value) ∧ integral (val value)
  | .writeUInt64LE value offset bufLen =>
    inRange Config.valueMax (val value) ∧ integral (val value) ∧ offset + 8 ≤ bufLen

/-- A run is clean when no response is a `Fault`, and faulted otherwise (R92, R103). -/
def State.clean (s : State) : Bool := !s.record.any Response.isFault

/-- The host keeps its duties in what it has left to do: one command at a time, each with a buffer of the capacity it
states (R97, R102). -/
def State.dutiful (s : State) : Prop :=
  ∀ beat ∈ s.queue, ∃ word buf, beat = [.command word buf] ∧ honest (decode word) (s.withPort buf) = true

end Sys2Proof.Machine
end

