-- ==== Sys2Proof/Certificates/Slice0/Obligations.lean ====
section
/-! DEFINITION. The statements for the provers, from the numbered rules of the spec, in the order of its files. Numbers
are written out where the rules write them: 9007199254740991 is 2^53 - 1, 4294967296 is 2^32, 2097151 is 2^21 - 1. -/
open Sys2Proof Sys2Proof.Machine

/-! ### 00_scope.md -/

/-- R11: the serialisers and the decoders, byte by byte. -/
def Obligations.SerialisersAndDecodersFollowTheirFormulas : Prop :=
  (∀ w : Word, le32 w =
    [BitVec.ofNat 8 w.toNat, BitVec.ofNat 8 (w.toNat / 2 ^ 8), BitVec.ofNat 8 (w.toNat / 2 ^ 16),
      BitVec.ofNat 8 (w.toNat / 2 ^ 24)]) ∧
  (∀ h : BitVec 16, be16 h = [BitVec.ofNat 8 (h.toNat / 2 ^ 8), BitVec.ofNat 8 h.toNat]) ∧
  (∀ b0 b1 b2 b3 b4 b5 b6 b7 : Byte, decLe64 [b0, b1, b2, b3, b4, b5, b6, b7] =
    b0.toNat + b1.toNat * 2 ^ 8 + b2.toNat * 2 ^ 16 + b3.toNat * 2 ^ 24 + b4.toNat * 2 ^ 32 + b5.toNat * 2 ^ 40 +
      b6.toNat * 2 ^ 48 + b7.toNat * 2 ^ 56) ∧
  (∀ b0 b1 : Byte, decBe16 [b0, b1] = b0.toNat * 256 + b1.toNat)

/-! ### 10_state.md -/

/-- From R21: which response ports are valid, and what they carry. The last clause, that none is left when the next
entry of the queue is taken, is the model's choice (log entry 11), made from R21's "valid for that response only". -/
def Obligations.ValidResponsePortsPerResponse : Prop :=
  (∀ h l, (Response.pair h l).ports = ⟨0#2, some h, some l, some 0#4, []⟩) ∧
  (∀ b : List Byte, b.length ≤ 8 →
    (Response.bytes b).ports = ⟨0#2, none, none, some (BitVec.ofNat 4 b.length), b⟩) ∧
  Response.done.ports = ⟨0#2, none, none, some 0#4, []⟩ ∧
  (Response.fault .rangeViolation).ports = ⟨1#2, none, none, none, []⟩ ∧
  (Response.fault .nonIntegerViolation).ports = ⟨2#2, none, none, none, []⟩ ∧
  (Response.fault .outOfBounds).ports = ⟨3#2, none, none, none, []⟩ ∧
  (∀ (s : State) (rest : List (List Access)), (s.takeBeat rest).responses = [])

/-- From R27 (the spec's own inference from R16, R18 and R35): the response to a command is a function of its operands
`op`, `val(value)`, `offset` and `buf_len` alone, and the buffer after it a function of them and of the buffer before
it. No earlier command, fault, queue or record, and no byte of any buffer, has a part in the response; bytes differ
afterwards at most in the window of the buffer on the memory port. Two commands with the same operands, the two zero
words among them, are one command here. -/
def Obligations.ResponseIsAFunctionOfTheCommandAlone : Prop :=
  ∀ (i i' : Instr) (s s' : State), operandsOf i = operandsOf i' → honest i s = true → honest i' s' = true →
    ∃ (r : Response) (t t' : State), exec i s = .next t ∧ exec i' s' = .next t' ∧
      t.record = s.record ++ [r] ∧ t'.record = s'.record ++ [r] ∧
      t.responses = s.responses ++ [r] ∧ t'.responses = s'.responses ++ [r] ∧
      (∀ n n', s.memPort = some n → s'.memPort = some n' → s.buffer n = s'.buffer n' →
        t.buffer n = t'.buffer n') ∧
      (∀ n a, (t.buffer n).readByte a ≠ (s.buffer n).readByte a →
        ∃ value offset bufLen, i = .writeUInt64LE value offset bufLen ∧ s.memPort = some n ∧
          offset ≤ a ∧ a < offset + 8)

/-! ### 20_memory.md -/

/-- From R28 (the block never allocates, grows, shrinks or frees BUF) and R73 (1): no step changes the capacity of any
buffer, the host's own accesses included. -/
def Obligations.StepKeepsEveryCapacity : Prop :=
  ∀ (s t : State), step s = .next t → ∀ n, (t.buffer n).capacity = (s.buffer n).capacity

/-- From R30: the window is computed without wrap-around, so an offset near 2^32 is out of bounds in every buffer the
ports can name. -/
def Obligations.OffsetNearTheTopNeverAliases : Prop :=
  ∀ (value : ValueWord) (offset bufLen n : Nat) (s : State),
    (Instr.writeUInt64LE value offset bufLen).wellFormed = true → bufLen ≤ s.attached.capacity →
    n ≤ 9007199254740991 → val value = .fin (n : Rat) → 2 ^ 32 - 8 ≤ offset →
    exec (.writeUInt64LE value offset bufLen) s = .next (s.deliver (.fault .outOfBounds))

/-- R31: `MemWrite` puts `B[i]` at `addr + i`; every other byte and the length of the buffer are as before. -/
def Obligations.MemWriteStoresTheBytesAndNoOther : Prop :=
  ∀ (b : Buffer) (addr : Nat) (bs : List Byte), addr + bs.length ≤ b.capacity →
    (b.memWrite addr bs).memRead addr bs.length = some bs ∧
    (∀ a, a < addr ∨ addr + bs.length ≤ a → (b.memWrite addr bs).readByte a = b.readByte a) ∧
    (b.memWrite addr bs).capacity = b.capacity

/-! ### 30_encoding.md -/

/-- From R43, R44, R49, R50: decoding the command word of a well-formed instruction gives it back, every operand at
every value its field can carry. -/
def Obligations.DecodeOfEncodeGivesTheInstruction : Prop :=
  ∀ i : Instr, i.wellFormed = true → decode (encode i) = i

/-- From R46 and R55: every word decodes to a well-formed instruction, whose encoding is the word with the fields that
are not read written as zero. -/
def Obligations.EncodeOfDecodeGivesTheListingWord : Prop :=
  ∀ w : CmdWord, (decode w).wellFormed = true ∧
    (opField w = 0b11#2 → encode (decode w) = w) ∧
    (opField w ≠ 0b11#2 → (encode (decode w)).toNat = (opField w).toNat * 2 ^ 128 + (valueField w).toNat * 2 ^ 64)

/-- From R55 (the spec's own inference from R44, R45, R47, R49 and R50): any 130-bit word is one of the four commands,
its operands the four fields of R43, the value operand what the value word denotes. -/
def Obligations.EveryCommandWordDecodesByItsFields : Prop :=
  ∀ w : CmdWord, ∃ (op : BitVec 2) (value : ValueWord) (offset bufLen : BitVec 32),
    w.toNat = op.toNat * 2 ^ 128 + value.toNat * 2 ^ 64 + offset.toNat * 2 ^ 32 + bufLen.toNat ∧
    (op = 0b00#2 → decode w = .uintHighLow value ∧ exec (decode w) = uintHighLow (val value)) ∧
    (op = 0b01#2 → decode w = .encodeUInt53LE value ∧ exec (decode w) = encodeUInt53LE (val value)) ∧
    (op = 0b10#2 → decode w = .encodeUInt16BE value ∧ exec (decode w) = encodeUInt16BE (val value)) ∧
    (op = 0b11#2 → decode w = .writeUInt64LE value offset.toNat bufLen.toNat ∧
      exec (decode w) = writeUInt64LE (val value) offset.toNat bufLen.toNat)

/-- From R45: a bit pattern the four ports cannot carry is no command, and every pattern they carry is one. -/
def Obligations.PatternsWiderThanThePortsAreRejected : Prop :=
  ∀ n : Nat, (n < 2 ^ 130 → decodeBits n = .ok (decode (BitVec.ofNat 130 n))) ∧
    (2 ^ 130 ≤ n → decodeBits n = .error .widerThanCommandPorts)

/-- R46: for `op` = 00, 01, 10 neither `offset` nor `buf_len` is read, nor is the memory port: two words that differ
only there get the same response and leave every buffer as it was; in listings the two fields are zero. -/
def Obligations.UnreadFieldsHaveNoEffect : Prop :=
  ∀ (w w' : CmdWord) (buf buf' : Option BufName) (s : State),
    opField w ≠ 0b11#2 → opField w' = opField w → valueField w' = valueField w →
    (∃ (r : Response) (t t' : State),
      perform (.command w buf) s = .next t ∧ perform (.command w' buf') s = .next t' ∧
      t.record = s.record ++ [r] ∧ t'.record = s.record ++ [r] ∧ t.buffers = s.buffers ∧ t'.buffers = s.buffers) ∧
    offsetField (encode (decode w)) = 0#32 ∧ bufLenField (encode (decode w)) = 0#32

/-- R47: what a value word denotes, by its sign, exponent and fraction fields; both zero words denote 0. -/
def Obligations.ValueWordDenotesItsBinary64Number : Prop :=
  val 0x0000000000000000#64 = .fin 0 ∧ val 0x8000000000000000#64 = .fin 0 ∧
  ∀ w : ValueWord, ∃ s e f : Nat, s < 2 ∧ e < 2048 ∧ f < 2 ^ 52 ∧ w.toNat = s * 2 ^ 63 + e * 2 ^ 52 + f ∧
    (e = 2047 → f ≠ 0 → val w = .nan) ∧
    (e = 2047 → f = 0 → s = 0 → val w = .posInf) ∧
    (e = 2047 → f = 0 → s = 1 → val w = .negInf) ∧
    (e = 0 → val w = .fin ((-1 : Rat) ^ s * (f : Rat) * (2 : Rat) ^ (-1074 : Int))) ∧
    (1 ≤ e → e ≤ 2046 →
      val w = .fin ((-1 : Rat) ^ s * ((2 : Rat) ^ 52 + (f : Rat)) * (2 : Rat) ^ ((e : Int) - 1075)))

/-- From R48: the verdict of Validate53 on a value word can be read off its bits, row by row, and `classify` is that
table. -/
def Obligations.VerdictFollowsFromTheBits : Prop :=
  ∀ w : ValueWord, ∃ s e f : Nat, s < 2 ∧ e < 2048 ∧ f < 2 ^ 52 ∧ w.toNat = s * 2 ^ 63 + e * 2 ^ 52 + f ∧
    (e = 0 → f = 0 → validate53 (val w) = .ok 0) ∧
    (e = 2047 → validate53 (val w) = .error .rangeViolation) ∧
    (s = 1 → ¬(e = 0 ∧ f = 0) → e ≠ 2047 → validate53 (val w) = .error .rangeViolation) ∧
    (s = 0 → 1076 ≤ e → e ≠ 2047 → validate53 (val w) = .error .rangeViolation) ∧
    (s = 0 → e = 0 → f ≠ 0 → validate53 (val w) = .error .nonIntegerViolation) ∧
    (s = 0 → 1 ≤ e → e ≤ 1022 → validate53 (val w) = .error .nonIntegerViolation) ∧
    (s = 0 → 1023 ≤ e → e ≤ 1075 → f % 2 ^ (1075 - e) ≠ 0 → validate53 (val w) = .error .nonIntegerViolation) ∧
    (s = 0 → 1023 ≤ e → e ≤ 1075 → f % 2 ^ (1075 - e) = 0 →
      validate53 (val w) = .ok ((2 ^ 52 + f) / 2 ^ (1075 - e)) ∧
      1 ≤ (2 ^ 52 + f) / 2 ^ (1075 - e) ∧ (2 ^ 52 + f) / 2 ^ (1075 - e) ≤ 9007199254740991) ∧
    classify w = validate53 (val w)

/-- From R48: every integer of [0, 2^53 - 1] has exactly one value word, apart from 0, which has two. -/
def Obligations.EveryIntegerHasItsValueWord : Prop :=
  ∀ n : Nat, n ≤ 9007199254740991 →
    val (wordOfNat n) = .fin (n : Rat) ∧
    (∀ w : ValueWord, val w = .fin (n : Rat) ↔ w = wordOfNat n ∨ (n = 0 ∧ w = 0x8000000000000000#64))

/-- From R52 and R21: the fields of a response word that are valid determine the response, for the operation that was
issued, whatever the other bits are; and every response has such a word. -/
def Obligations.ResponseWordDeterminesTheResponse : Prop :=
  ∀ (op : BitVec 2) (r : Response), r.wf = true →
    ((∃ h l, r = .pair h l) → op = 0b00#2) → ((∃ b, r = .bytes b) → op = 0b01#2 ∨ op = 0b10#2) →
    (r = .done → op = 0b11#2) →
    (∃ w, r.ports.shownBy w = true) ∧ (∀ w, r.ports.shownBy w = true → readResponse op w = r)

/-- R54: the two pseudo-forms; `encodeUInt53LE` is not one of `writeUInt64LE`. -/
def Obligations.PseudoFormsExpand : Prop :=
  ∀ (cap : BufName → Nat) (value : ValueWord) (n : BufName),
    (Line.writeUInt64LE value n none).instr cap = (Line.writeUInt64LE value n (some 0)).instr cap ∧
    (Line.writeUInt64LE value n none).instr cap = .writeUInt64LE value 0 (cap n) ∧
    (Line.writeUInt64LE value n none).port = some n ∧
    (Line.splitUnsigned53 value).instr cap = .uintHighLow value ∧
    (Line.splitUnsigned53 value).instr cap = (Line.uintHighLow value).instr cap ∧
    (∀ value' n' offset, (Line.encodeUInt53LE value).instr cap ≠ (Line.writeUInt64LE value' n' offset).instr cap) ∧
    (Line.encodeUInt53LE value).port = none

/-- A sanity statement: command words of the programs P1, P2 and P5
(95_test_vectors.md) decode to the commands they are listed for. -/
def Obligations.ListedWordsDecodeAsListed : Prop :=
  decode 0x33FF00000000000000000000000000010#130 = .writeUInt64LE 0x3FF0000000000000#64 0 16 ∧
  decode 0x342F23456789ABCD0000000030000000C#130 = .writeUInt64LE 0x42F23456789ABCD0#64 3 12 ∧
  decode 0x240702000000000000000000000000000#130 = .encodeUInt16BE 0x4070200000000000#64 ∧
  decode 0x140EFFFE0000000000000000000000000#130 = .encodeUInt53LE 0x40EFFFE000000000#64 ∧
  decode 0x042F23456789ABCD00000000000000000#130 = .uintHighLow 0x42F23456789ABCD0#64

/-! ### 40_split.md -/

/-- R57 and R58: what `Validate53` answers for every `Num`, in the order of its checks. -/
def Obligations.Validate53ChecksRangeThenIntegrality : Prop :=
  validate53 .nan = .error .rangeViolation ∧ validate53 .posInf = .error .rangeViolation ∧
  validate53 .negInf = .error .rangeViolation ∧
  (∀ q : Rat, q < 0 ∨ 9007199254740991 < q → validate53 (.fin q) = .error .rangeViolation) ∧
  (∀ q : Rat, 0 ≤ q → q ≤ 9007199254740991 → (∀ z : Int, q ≠ (z : Rat)) →
    validate53 (.fin q) = .error .nonIntegerViolation) ∧
  (∀ n : Nat, n ≤ 9007199254740991 → validate53 (.fin (n : Rat)) = .ok n)

/-- From R59 (that the pair is the only one is the spec's own inference): `Split53` is quotient and remainder by 2^32
(the shift and the mask of NATV), gives the number back, keeps `high` within 21 bits, and is the only pair of u32s
that gives the number back. -/
def Obligations.SplitIsTheOnlyPairOfLimbs : Prop :=
  ∀ v : Nat, v ≤ 9007199254740991 →
    (split53 v).1.toNat = v / 4294967296 ∧ (split53 v).2.toNat = v % 4294967296 ∧
    (split53 v).1.toNat = v >>> 32 ∧ (split53 v).2.toNat = v &&& 0xFFFFFFFF ∧
    (split53 v).1.toNat * 4294967296 + (split53 v).2.toNat = v ∧ (split53 v).1.toNat ≤ 2097151 ∧
    (∀ h l : Word, h.toNat * 4294967296 + l.toNat = v → (h, l) = split53 v)

/-- R60: `uintHighLow` answers the pair for an accepted operand and raises the two conditions otherwise, and does
nothing else. -/
def Obligations.UintHighLowAnswersThePair : Prop :=
  ∀ (value : ValueWord) (s : State),
    (∀ n : Nat, n ≤ 9007199254740991 → val value = .fin (n : Rat) →
      exec (.uintHighLow value) s =
        .next { s with
          responses := s.responses ++ [.pair (BitVec.ofNat 32 (n / 4294967296)) (BitVec.ofNat 32 (n % 4294967296))]
          record := s.record ++ [.pair (BitVec.ofNat 32 (n / 4294967296)) (BitVec.ofNat 32 (n % 4294967296))] }) ∧
    (¬inRange 9007199254740991 (val value) →
      exec (.uintHighLow value) s = .next (s.deliver (.fault .rangeViolation))) ∧
    (inRange 9007199254740991 (val value) → ¬integral (val value) →
      exec (.uintHighLow value) s = .next (s.deliver (.fault .nonIntegerViolation)))

/-- From R61 (informative, the spec's own inference from R59): the source's own algorithm, with the correction of
90_conflicts.md C3, gives `Split53`; with bit 31 set its low word is the low 31 bits plus 2^31. -/
def Obligations.SourceAlgorithmGivesTheSplit : Prop :=
  ∀ v : Nat, v ≤ 9007199254740991 →
    legacyLow v = ((split53 v).2.toNat : Int) ∧ legacyHigh v = ((split53 v).1.toNat : Int) ∧
    (2147483648 ≤ v % 4294967296 →
      legacySigned v = (v % 4294967296 : Nat) - 4294967296 ∧ legacyLow v = (v % 2147483648 + 2147483648 : Nat)) ∧
    (v % 4294967296 < 2147483648 → legacySigned v = (v % 4294967296 : Nat))

/-- From R62 (properties (2) to (6) are the spec's own inference from R59): the properties of `uintHighLow` over every
`Num`: total, a pair exactly for the integers of [0, 2^53 - 1], round trip, bounds, `high = 0`, injective, and
monotone in lexicographic order. -/
def Obligations.UintHighLowProperties : Prop :=
  (∀ (v : Sys2Proof.Num) (s : State), ∃ r : Response, uintHighLow v s = .next (s.deliver r) ∧
    ((∃ h l, r = .pair h l) ↔ ∃ n : Nat, n ≤ 9007199254740991 ∧ v = .fin (n : Rat)) ∧
    (∀ (n : Nat) (h l : Word), v = .fin (n : Rat) → r = .pair h l →
      h.toNat * 4294967296 + l.toNat = n ∧ l.toNat ≤ 4294967295 ∧ h.toNat ≤ 2097151 ∧
      (h = 0#32 ↔ n ≤ 4294967295))) ∧
  (∀ (n n' : Nat) (s : State) (h l h' l' : Word), n < n' →
    uintHighLow (.fin (n : Rat)) s = .next (s.deliver (.pair h l)) →
    uintHighLow (.fin (n' : Rat)) s = .next (s.deliver (.pair h' l')) →
    (h, l) ≠ (h', l') ∧ (h.toNat < h'.toNat ∨ (h = h' ∧ l.toNat < l'.toNat)))

/-! ### 41_tobuffer.md -/

/-- R64: `encodeUInt53LE` answers the eight bytes, low word first, each word least significant byte first. -/
def Obligations.EncodeUInt53LEAnswersEightBytes : Prop :=
  ∀ (value : ValueWord) (s : State),
    (∀ n : Nat, n ≤ 9007199254740991 → val value = .fin (n : Rat) →
      ∃ low high : Word, low.toNat = n % 4294967296 ∧ high.toNat = n / 4294967296 ∧
        exec (.encodeUInt53LE value) s =
          .next (s.deliver (.bytes
            [low.extractLsb' 0 8, low.extractLsb' 8 8, low.extractLsb' 16 8, low.extractLsb' 24 8,
              high.extractLsb' 0 8, high.extractLsb' 8 8, high.extractLsb' 16 8, high.extractLsb' 24 8]))) ∧
    (¬inRange 9007199254740991 (val value) →
      exec (.encodeUInt53LE value) s = .next (s.deliver (.fault .rangeViolation))) ∧
    (inRange 9007199254740991 (val value) → ¬integral (val value) →
      exec (.encodeUInt53LE value) s = .next (s.deliver (.fault .nonIntegerViolation)))

/-- From R65 (properties (1) and (3) to (6) are the spec's own inference from R64): the properties of `encodeUInt53LE`
over every `Num`: length, round trip, byte `i`, the two top bytes, injective, and its relation to `uintHighLow`,
faults included. -/
def Obligations.EncodeUInt53LEProperties : Prop :=
  (∀ (v : Sys2Proof.Num) (s : State) (B : List Byte), encodeUInt53LE v s = .next (s.deliver (.bytes B)) →
    B.length = 8 ∧ v = .fin (decLe64 B : Rat) ∧
    (∀ i, i < 8 → B[i]? = some (BitVec.ofNat 8 (decLe64 B / 2 ^ (8 * i)))) ∧
    B[7]? = some 0x00#8 ∧ (∃ b : Byte, B[6]? = some b ∧ b.toNat ≤ 0x1F)) ∧
  (∀ n : Nat, n ≤ 9007199254740991 → ∀ s : State, ∃ B, decLe64 B = n ∧
    encodeUInt53LE (.fin (n : Rat)) s = .next (s.deliver (.bytes B))) ∧
  (∀ (v v' : Sys2Proof.Num) (s : State) (B : List Byte), encodeUInt53LE v s = .next (s.deliver (.bytes B)) →
    encodeUInt53LE v' s = .next (s.deliver (.bytes B)) → v = v') ∧
  (∀ (v : Sys2Proof.Num) (s : State) (h l : Word), uintHighLow v s = .next (s.deliver (.pair h l)) ↔
    h.toNat ≤ 2097151 ∧ encodeUInt53LE v s = .next (s.deliver (.bytes (le32 l ++ le32 h)))) ∧
  (∀ (v : Sys2Proof.Num) (s : State) (e : ErrorCondition), uintHighLow v s = .next (s.deliver (.fault e)) ↔
    encodeUInt53LE v s = .next (s.deliver (.fault e)))

/-- R66: what `Validate16` answers for every `Num`, in the order of its checks. -/
def Obligations.Validate16ChecksRangeThenIntegrality : Prop :=
  validate16 .nan = .error .rangeViolation ∧ validate16 .posInf = .error .rangeViolation ∧
  validate16 .negInf = .error .rangeViolation ∧
  (∀ q : Rat, q < 0 ∨ 65535 < q → validate16 (.fin q) = .error .rangeViolation) ∧
  (∀ q : Rat, 0 ≤ q → q ≤ 65535 → (∀ z : Int, q ≠ (z : Rat)) → validate16 (.fin q) = .error .nonIntegerViolation) ∧
  (∀ n : Nat, n ≤ 65535 → validate16 (.fin (n : Rat)) = .ok n)

/-- R67: `encodeUInt16BE` answers two bytes, most significant first, and faults outside [0, 65535]. -/
def Obligations.EncodeUInt16BEAnswersTwoBytes : Prop :=
  ∀ (value : ValueWord) (s : State),
    (∀ n : Nat, n ≤ 65535 → val value = .fin (n : Rat) →
      exec (.encodeUInt16BE value) s =
        .next (s.deliver (.bytes [BitVec.ofNat 8 (n / 256), BitVec.ofNat 8 (n % 256)]))) ∧
    (¬inRange 65535 (val value) →
      exec (.encodeUInt16BE value) s = .next (s.deliver (.fault .rangeViolation))) ∧
    (inRange 65535 (val value) → ¬integral (val value) →
      exec (.encodeUInt16BE value) s = .next (s.deliver (.fault .nonIntegerViolation)))

/-- From R68 (properties (1), (3) and (4) are the spec's own inference from R64 and R67): the properties of
`encodeUInt16BE`: length, round trip, injective, and the byte reversal of the low two bytes of `encodeUInt53LE`. -/
def Obligations.EncodeUInt16BEProperties : Prop :=
  (∀ (v : Sys2Proof.Num) (s : State) (B : List Byte), encodeUInt16BE v s = .next (s.deliver (.bytes B)) →
    B.length = 2 ∧ v = .fin (decBe16 B : Rat)) ∧
  (∀ (v v' : Sys2Proof.Num) (s : State) (B : List Byte), encodeUInt16BE v s = .next (s.deliver (.bytes B)) →
    encodeUInt16BE v' s = .next (s.deliver (.bytes B)) → v = v') ∧
  (∀ (n : Nat) (s : State), n ≤ 65535 → ∃ (b0 b1 : Byte) (rest : List Byte),
    encodeUInt53LE (.fin (n : Rat)) s = .next (s.deliver (.bytes (b0 :: b1 :: rest))) ∧
    encodeUInt16BE (.fin (n : Rat)) s = .next (s.deliver (.bytes [b1, b0])) ∧ decBe16 [b1, b0] = n)

/-- From R69 and R60, the frame of the three value operations: whatever the operand, no buffer, no port and nothing
that is still to happen changes, and the buffers play no part. -/
def Obligations.ValueOperationsChangeNothingButTheResponse : Prop :=
  ∀ (i : Instr), (∀ value offset bufLen, i ≠ .writeUInt64LE value offset bufLen) →
    ∃ r : Response, ∀ s : State, ∃ t, exec i s = .next t ∧
      t.responses = s.responses ++ [r] ∧ t.record = s.record ++ [r] ∧
      t.buffers = s.buffers ∧ t.memPort = s.memPort ∧ t.queue = s.queue ∧ t.block = s.block

/-! ### 42_write.md -/

/-- R71: `writeUInt64LE`. For an accepted operand whose window fits, the low word is at `offset` and the high word at
`offset + 4` of the buffer on the memory port, each least significant byte first, every other byte of every buffer is
as before, and the response is `Done`; otherwise one condition is raised, in the order of R71, and nothing else
happens. -/
def Obligations.WriteUInt64LEStoresBothWords : Prop :=
  ∀ (value : ValueWord) (offset bufLen : Nat) (s : State), bufLen ≤ s.attached.capacity →
    (∀ n : Nat, n ≤ 9007199254740991 → val value = .fin (n : Rat) → offset + 8 ≤ bufLen →
      ∃ (name : BufName) (t : State), s.memPort = some name ∧
        exec (.writeUInt64LE value offset bufLen) s = .next t ∧
        t.responses = s.responses ++ [.done] ∧ t.record = s.record ++ [.done] ∧
        t.queue = s.queue ∧ t.memPort = s.memPort ∧ t.block = s.block ∧
        (∀ i, i < 4 → (t.buffer name).readByte (offset + i) =
          some (BitVec.ofNat 8 (n % 4294967296 / 2 ^ (8 * i)))) ∧
        (∀ i, i < 4 → (t.buffer name).readByte (offset + 4 + i) =
          some (BitVec.ofNat 8 (n / 4294967296 / 2 ^ (8 * i)))) ∧
        (∀ a, a < offset ∨ offset + 8 ≤ a → (t.buffer name).readByte a = (s.buffer name).readByte a) ∧
        (t.buffer name).capacity = (s.buffer name).capacity ∧
        (∀ m, m ≠ name → t.buffer m = s.buffer m)) ∧
    (¬inRange 9007199254740991 (val value) →
      exec (.writeUInt64LE value offset bufLen) s = .next (s.deliver (.fault .rangeViolation))) ∧
    (inRange 9007199254740991 (val value) → ¬integral (val value) →
      exec (.writeUInt64LE value offset bufLen) s = .next (s.deliver (.fault .nonIntegerViolation))) ∧
    (inRange 9007199254740991 (val value) → integral (val value) → bufLen < offset + 8 →
      exec (.writeUInt64LE value offset bufLen) s = .next (s.deliver (.fault .outOfBounds)))

/-- R73: frame, round trip, and no influence of the window's previous contents. -/
def Obligations.WriteFrameAndRoundTrip : Prop :=
  ∀ (value : ValueWord) (offset bufLen : Nat) (s t : State),
    exec (.writeUInt64LE value offset bufLen) s = .next t → t.record = s.record ++ [.done] →
    ∃ (name : BufName) (n : Nat) (B : List Byte), s.memPort = some name ∧ val value = .fin (n : Rat) ∧
      (∀ a, a < offset ∨ offset + 8 ≤ a → (t.buffer name).readByte a = (s.buffer name).readByte a) ∧
      (t.buffer name).capacity = (s.buffer name).capacity ∧
      (t.buffer name).memRead offset 8 = some B ∧ decLe64 B = n ∧
      (∀ (s' t' : State) (name' : BufName), s'.memPort = some name' →
        exec (.writeUInt64LE value offset bufLen) s' = .next t' → (t'.buffer name').memRead offset 8 = some B)

/-- R74: a faulting `writeUInt64LE` writes nothing, whichever of the three conditions it raises; this holds of every
command. -/
def Obligations.FaultingCommandHasNoOtherEffect : Prop :=
  ∀ (i : Instr) (s t : State) (e : ErrorCondition), exec i s = .next t → t.record = s.record ++ [.fault e] →
    t = s.deliver (.fault e) ∧ t.buffers = s.buffers

/-- From R75 (1): `writeUInt64LE` succeeds exactly when `encodeUInt53LE` does and the window fits; then the window
holds the bytes `encodeUInt53LE` returns, in the same order. -/
def Obligations.WrittenWindowIsTheEncodedBytes : Prop :=
  ∀ (v : Sys2Proof.Num) (offset bufLen : Nat) (s : State), bufLen ≤ s.attached.capacity →
    ∃ t, writeUInt64LE v offset bufLen s = .next t ∧
      (t.record = s.record ++ [.done] ↔
        (∃ B, encodeUInt53LE v s = .next (s.deliver (.bytes B))) ∧ offset + 8 ≤ bufLen) ∧
      (∀ B, encodeUInt53LE v s = .next (s.deliver (.bytes B)) → offset + 8 ≤ bufLen →
        t.attached.memRead offset 8 = some B)

/-- From R75 (2), R38 and R75 (3), R40 (2): the same write twice leaves the buffers as once, as equal data; of two
overlapping writes each byte keeps the later one's value where that one wrote, and the first one's elsewhere. -/
def Obligations.RepeatedAndOverlappingWrites : Prop :=
  ∀ (v v' : Sys2Proof.Num) (offset offset' bufLen bufLen' : Nat) (s t u u' : State), s.Inv →
    writeUInt64LE v offset bufLen s = .next t → t.record = s.record ++ [.done] →
    (writeUInt64LE v offset bufLen t = .next u → u.buffers = t.buffers) ∧
    (writeUInt64LE v' offset' bufLen' t = .next u → u.record = t.record ++ [.done] →
      writeUInt64LE v' offset' bufLen' s = .next u' →
      ∀ a, (offset' ≤ a → a < offset' + 8 → u.attached.readByte a = u'.attached.readByte a) ∧
        (a < offset' ∨ offset' + 8 ≤ a → u.attached.readByte a = t.attached.readByte a))

/-- From 93_implementation_defined.md U3, and no rule of the spec: the model's own reading of the parameter
`OOB_PARTIAL` where it is true (log entry 5). Each byte of the low word has its old value or its new one, whatever the
free value is; every other byte is as before. -/
def Obligations.PartialWriteUnderOobPartial : Prop :=
  ∀ (offset bufLen n : Nat) (s : State) (name : BufName), s.memPort = some name →
    ∃ t, raiseOutOfBounds true offset bufLen n s = .next t ∧ t.record = s.record ++ [.fault .outOfBounds] ∧
      (∀ i, i < 4 → (t.buffer name).readByte (offset + i) = (s.buffer name).readByte (offset + i) ∨
        offset + 4 ≤ bufLen ∧
          (t.buffer name).readByte (offset + i) = some (BitVec.ofNat 8 (n % 4294967296 / 2 ^ (8 * i)))) ∧
      (∀ a, a < offset ∨ offset + 4 ≤ a → (t.buffer name).readByte a = (s.buffer name).readByte a) ∧
      (∀ m, m ≠ name → t.buffer m = s.buffer m)

/-! ### 60_exceptions.md -/

/-- R80: `raise E` ends the command with `Fault(E)` alone: the status is the code of `E`, no other response port is
valid, no byte of a buffer and nothing else changes. -/
def Obligations.RaiseDeliversTheFaultAlone : Prop :=
  ∀ (e : ErrorCondition) (s : State), ∃ t, raise e s = .next t ∧
    t.responses = s.responses ++ [.fault e] ∧ t.record = s.record ++ [.fault e] ∧
    (Response.fault e).ports = ⟨e.code, none, none, none, []⟩ ∧
    t.buffers = s.buffers ∧ t.memPort = s.memPort ∧ t.queue = s.queue ∧ t.block = s.block

/-- R81: the codes on the `status` port; 0 is OK. -/
def Obligations.StatusCodesOfTheConditions : Prop :=
  ErrorCondition.rangeViolation.code = 1#2 ∧ ErrorCondition.nonIntegerViolation.code = 2#2 ∧
  ErrorCondition.outOfBounds.code = 3#2 ∧
  (∀ r : Response, r.ports.status = 0#2 ↔ r.isFault = false) ∧
  (∀ e : ErrorCondition, (Response.fault e).ports.status = e.code)

/-- R91: InvalidArgument is the class of the two validation conditions. -/
def Obligations.InvalidArgumentIsTheTwoValidationConditions : Prop :=
  ∀ e : ErrorCondition, e.isInvalidArgument = true ↔ e = .rangeViolation ∨ e = .nonIntegerViolation

/-- R83: of the conditions that apply to a command exactly one is reported, the first in the order RangeViolation,
NonIntegerViolation, OutOfBounds; the last applies to `writeUInt64LE` only. -/
def Obligations.FirstConditionThatAppliesIsReported : Prop :=
  (∀ (v : Sys2Proof.Num) (offset bufLen : Nat) (s : State), bufLen ≤ s.attached.capacity →
    ∃ (r : Response) (t : State), writeUInt64LE v offset bufLen s = .next t ∧ t.record = s.record ++ [r] ∧
      (r = .fault .rangeViolation ↔ ¬inRange 9007199254740991 v) ∧
      (r = .fault .nonIntegerViolation ↔ inRange 9007199254740991 v ∧ ¬integral v) ∧
      (r = .fault .outOfBounds ↔ inRange 9007199254740991 v ∧ integral v ∧ bufLen < offset + 8) ∧
      (r = .done ↔ inRange 9007199254740991 v ∧ integral v ∧ offset + 8 ≤ bufLen)) ∧
  (∀ (v : Sys2Proof.Num) (s : State), ∃ (r r' r'' : Response),
    uintHighLow v s = .next (s.deliver r) ∧ encodeUInt53LE v s = .next (s.deliver r') ∧
    encodeUInt16BE v s = .next (s.deliver r'') ∧
    (r = .fault .rangeViolation ↔ ¬inRange 9007199254740991 v) ∧
    (r = .fault .nonIntegerViolation ↔ inRange 9007199254740991 v ∧ ¬integral v) ∧
    (r' = .fault .rangeViolation ↔ ¬inRange 9007199254740991 v) ∧
    (r' = .fault .nonIntegerViolation ↔ inRange 9007199254740991 v ∧ ¬integral v) ∧
    (r'' = .fault .rangeViolation ↔ ¬inRange 65535 v) ∧
    (r'' = .fault .nonIntegerViolation ↔ inRange 65535 v ∧ ¬integral v) ∧
    r ≠ .fault .outOfBounds ∧ r' ≠ .fault .outOfBounds ∧ r'' ≠ .fault .outOfBounds)

/-- From R85 (the spec's own inference from R27): after a fault the next command gets the response, and leaves the
buffers, it would have had the faulting command never been issued. -/
def Obligations.CommandAfterAFaultIsUnaffected : Prop :=
  ∀ (i j : Instr) (s t : State) (e : ErrorCondition), exec i s = .next t → t.record = s.record ++ [.fault e] →
    honest j s = true →
    ∃ (r : Response) (u u' : State), exec j t = .next u ∧ exec j s = .next u' ∧
      u.record = t.record ++ [r] ∧ u'.record = s.record ++ [r] ∧ u.buffers = u'.buffers

/-- From R89 (2) for two steps at one time and R75 (4), both the spec's own inference: where the two do not overlap,
the order in which they are taken decides no byte of any buffer (as equal data) and neither response. -/
def Obligations.StepsThatDoNotOverlapCommute : Prop :=
  ∀ (w w' : CmdWord) (buf buf' : Option BufName) (s t : State), s.Inv →
    overlapping [.command w buf, .command w' buf'] = false →
    performAll [.command w buf, .command w' buf'] s = .next t →
    ∃ (t' : State) (r r' : Response), performAll [.command w' buf', .command w buf] s = .next t' ∧
      t'.buffers = t.buffers ∧ t.record = s.record ++ [r, r'] ∧ t'.record = s.record ++ [r', r]

/-- From R92: the host's record of the run keeps every response received, in order, and nothing else; a run with a
fault stays faulted, whatever follows. That the responses of an entry of the queue are those on the ports after it is
the model's choice (log entry 11). -/
def Obligations.RecordKeepsEveryFault : Prop :=
  ∀ (s t : State), step s = .next t →
    (s.queue = [] → t.record = s.record) ∧ (s.queue ≠ [] → t.record = s.record ++ t.responses) ∧
    (s.clean = false → t.clean = false) ∧
    (∀ e, Response.fault e ∈ t.record → t.clean = false)

/-! ### 70_reset_and_hazards.md -/

/-- From the model's choice of start (log entry 3): the machine's invariant holds at reset, and no port is valid
(R26). -/
def Obligations.ResetMeetsTheInvariant : Prop :=
  State.reset.Inv ∧ State.reset.responses = [] ∧ State.reset.record = [] ∧ State.reset.clean = true

/-- Every step keeps the machine's invariant (`State.Inv`): each buffer is named once, lists its bytes in canonical
form and none outside its capacity, and every response has a shape R14 and R59 allow. -/
def Obligations.StepKeepsTheInvariant : Prop :=
  ∀ (s t : State), s.Inv → step s = .next t → t.Inv

/-- R94: reset does not touch memory; no response is pending after it and none is delivered for it. -/
def Obligations.ResetTouchesNoBuffer : Prop :=
  ∀ (s : State) (rest : List (List Access)), s.queue = [.reset] :: rest →
    ∃ t, step s = .next t ∧ t.buffers = s.buffers ∧ t.responses = [] ∧ t.record = s.record ∧ t.queue = rest

/-- From R97, R89 (3), R102, U4 and U11: an entry of the queue that holds, anywhere and in either order, a
`writeUInt64LE` and an access of another agent to a byte of its window is refused, never given an answer; and so is an
entry that holds a reset and any command. That accesses of one time stand in one entry is the model's choice (log entry
7), and so is that a reset is refused beside a command of another block (log entry 15). -/
def Obligations.OverlapAtOneTimeIsRefused : Prop :=
  ∀ (s : State) (beat : List Access) (rest : List (List Access)), s.queue = beat :: rest →
    (∀ w buf, .reset ∈ beat → .command w buf ∈ beat → step s = .refused .resetDuringStep) ∧
    (∀ (l m r : List Access) (a b : Access), beat = l ++ a :: (m ++ b :: r) →
      (touchesWindow a b ∨ touchesWindow b a) →
      (.reset ∉ beat → step s = .refused .overlappingAccess) ∧
      (.reset ∈ beat → step s = .refused .resetDuringStep))

/-- From R98 (the spec's own inference from R76): a command that meets the conditions of R57, R58, R66 and R72 cannot
fault, and one that does not, faults. -/
def Obligations.CommandThatMeetsTheConditionsCannotFault : Prop :=
  ∀ (i : Instr) (s : State), honest i s = true →
    ∃ (r : Response) (t : State), exec i s = .next t ∧ t.record = s.record ++ [r] ∧
      (r.isFault = false ↔ conditionsMet i)

/-- From R102 and 93_implementation_defined.md U5: a `buf_len` larger than the memory attached has no move. -/
def Obligations.FalseCapacityIsRefused : Prop :=
  ∀ (value : ValueWord) (offset bufLen : Nat) (s : State), s.attached.capacity < bufLen →
    exec (.writeUInt64LE value offset bufLen) s = .refused .falseCapacity

/-- From R105 (the spec's own inference from R60, R64, R67 and R71): every command ends, in one step, with exactly one
response, whatever the operands and the contents of the buffers; none stops the machine. -/
def Obligations.EveryCommandEndsWithOneResponse : Prop :=
  (∀ (i : Instr) (s : State), honest i s = true →
    ∃ (r : Response) (t : State), exec i s = .next t ∧
      t.record = s.record ++ [r] ∧ t.responses = s.responses ++ [r] ∧
      t.queue = s.queue ∧ t.memPort = s.memPort) ∧
  (∀ (i : Instr) (s : State) (r : Fault), exec i s ≠ .fault r)

/-- A step runs the decoded command (from R104, decision D12): where the host has one command next, the step is that
command, with its buffer on the memory port, the entry taken from the queue, and no earlier response on the ports. That
the earlier responses leave the ports then is the model's choice (log entry 11, from R21). -/
def Obligations.StepRunsTheDecodedCommand : Prop :=
  ∀ (s : State) (word : CmdWord) (buf : Option BufName) (rest : List (List Access)),
    s.queue = [.command word buf] :: rest →
    step s = exec (decode word) { s with memPort := buf, queue := rest, responses := [] }

/-- From the model's own loader (log entry 3): a command word presented from outside runs in the very next step, with
a buffer on the memory port that is long enough; no byte of any buffer, no planned access and no recorded response is
changed by presenting it. -/
def Obligations.PresentedWordRunsNext : Prop :=
  ∀ (s : State) (nbits w : Nat), w < 2 ^ nbits → w < 2 ^ 130 →
    ∃ t, step (s.withFetchWord nbits w) = exec (decode (BitVec.ofNat 130 w)) t ∧
      honest (decode (BitVec.ofNat 130 w)) t = true ∧ t.queue = s.queue ∧ t.record = s.record ∧ t.responses = [] ∧
      (∀ n a, (t.buffer n).readByte a = (s.buffer n).readByte a)

/-- From R102 and R40 (3): with nothing to do nothing happens; the host reads and writes its own bytes between
commands, the block unaware. That a host access at an address its buffer does not have is the fault
`addressOutsideBuffer` is the model's choice (log entry 8): R39 speaks only of a command. -/
def Obligations.BetweenCommandsOnlyTheHostActs : Prop :=
  ∀ s : State,
    (s.queue = [] → step s = .next s) ∧
    (∀ n addr byte rest, s.queue = [.hostWrite n addr byte] :: rest →
      (addr < (s.buffer n).capacity → ∃ t, step s = .next t ∧ t.record = s.record ∧ t.block = s.block ∧
        (t.buffer n).readByte addr = some byte ∧
        (∀ a, a ≠ addr → (t.buffer n).readByte a = (s.buffer n).readByte a) ∧
        (∀ m, m ≠ n → t.buffer m = s.buffer m)) ∧
      ((s.buffer n).capacity ≤ addr → step s = .fault .addressOutsideBuffer)) ∧
    (∀ n addr rest, s.queue = [.hostRead n addr] :: rest →
      (addr < (s.buffer n).capacity → ∃ t, step s = .next t ∧ t.record = s.record ∧ t.buffers = s.buffers) ∧
      ((s.buffer n).capacity ≤ addr → step s = .fault .addressOutsideBuffer))

/-- From R103, R104 and R105: commands issued one at a time by a dutiful host all run, in as many steps, whatever
faults: at the end nothing is left to do, and there is one more response for each. -/
def Obligations.DutifulHostRunsToItsEnd : Prop :=
  ∀ s : State, s.dutiful →
    ∃ (t : State) (rs : List Response), Host.Core.run core s.queue.length s = .next t ∧
      t.queue = [] ∧ t.record = s.record ++ rs ∧ rs.length = s.queue.length ∧
      (∀ n, (t.buffer n).capacity = (s.buffer n).capacity)

/-- From R103 and R104: any list of lines whose offsets and buffer lengths fit the ports runs to its end, with one
response for each line, and the run is faulted exactly when some response is a fault. How a program is loaded, the empty
host it is loaded into, and what a line's words are, are the model's choices (log entries 3, 4 and 13). -/
def Obligations.EveryLoadedListOfLinesEnds : Prop :=
  ∀ p : Program,
    (∀ c ∈ p.buffers, c.2.capacity < 2 ^ 32) →
    (∀ value n offset, Line.writeUInt64LE value n (some offset) ∈ p.lines → offset < 2 ^ 32) →
    ∃ t : State, Host.Core.run core p.lines.length p.load = .next t ∧ t.queue = [] ∧
      t.record.length = p.lines.length ∧ (t.clean = false ↔ ∃ e, Response.fault e ∈ t.record)
end

