-- ==== Sys2Proof/Laws/State.lean ====
section
/-! SUPPORT. What each update of the state leaves and sets, one lemma a field, so that no later proof unfolds a record
update. -/
namespace Sys2Proof.Machine

section deliver
variable (s : State) (r : Response) (n : BufName)
@[simp] theorem deliver_memPort : (s.deliver r).memPort = s.memPort := rfl
@[simp] theorem deliver_buffers : (s.deliver r).buffers = s.buffers := rfl
@[simp] theorem deliver_queue : (s.deliver r).queue = s.queue := rfl
@[simp] theorem deliver_responses : (s.deliver r).responses = s.responses ++ [r] := rfl
@[simp] theorem deliver_record : (s.deliver r).record = s.record ++ [r] := rfl
@[simp] theorem deliver_buffer : (s.deliver r).buffer n = s.buffer n := rfl
@[simp] theorem deliver_attached : (s.deliver r).attached = s.attached := rfl
end deliver

section setBuffer
variable (s : State) (n : BufName) (b : Buffer)
@[simp] theorem setBuffer_memPort : (s.setBuffer n b).memPort = s.memPort := rfl
@[simp] theorem setBuffer_buffers : (s.setBuffer n b).buffers = insertKey s.buffers n b := rfl
@[simp] theorem setBuffer_queue : (s.setBuffer n b).queue = s.queue := rfl
@[simp] theorem setBuffer_responses : (s.setBuffer n b).responses = s.responses := rfl
@[simp] theorem setBuffer_record : (s.setBuffer n b).record = s.record := rfl
end setBuffer

section setAttached
variable (s : State) (b : Buffer)
@[simp] theorem setAttached_memPort : (s.setAttached b).memPort = s.memPort := by
  unfold State.setAttached; split <;> rfl
@[simp] theorem setAttached_queue : (s.setAttached b).queue = s.queue := by
  unfold State.setAttached; split <;> rfl
@[simp] theorem setAttached_responses : (s.setAttached b).responses = s.responses := by
  unfold State.setAttached; split <;> rfl
@[simp] theorem setAttached_record : (s.setAttached b).record = s.record := by
  unfold State.setAttached; split <;> rfl
theorem setAttached_of_some {n : BufName} (h : s.memPort = some n) : s.setAttached b = s.setBuffer n b := by
  simp [State.setAttached, h]
theorem setAttached_of_none (h : s.memPort = none) : s.setAttached b = s := by
  simp [State.setAttached, h]
theorem attached_of_some {n : BufName} (h : s.memPort = some n) : s.attached = s.buffer n := by
  simp [State.attached, h]
theorem attached_of_none (h : s.memPort = none) : s.attached = Buffer.absent := by
  simp [State.attached, h]
end setAttached

section withPort
variable (s : State) (p : Option BufName) (n : BufName)
@[simp] theorem withPort_memPort : (s.withPort p).memPort = p := rfl
@[simp] theorem withPort_buffers : (s.withPort p).buffers = s.buffers := rfl
@[simp] theorem withPort_queue : (s.withPort p).queue = s.queue := rfl
@[simp] theorem withPort_responses : (s.withPort p).responses = s.responses := rfl
@[simp] theorem withPort_record : (s.withPort p).record = s.record := rfl
@[simp] theorem withPort_buffer : (s.withPort p).buffer n = s.buffer n := rfl
end withPort

section takeBeat
variable (s : State) (rest : List (List Access)) (n : BufName)
@[simp] theorem takeBeat_memPort : (s.takeBeat rest).memPort = s.memPort := rfl
@[simp] theorem takeBeat_buffers : (s.takeBeat rest).buffers = s.buffers := rfl
@[simp] theorem takeBeat_queue : (s.takeBeat rest).queue = rest := rfl
@[simp] theorem takeBeat_responses : (s.takeBeat rest).responses = [] := rfl
@[simp] theorem takeBeat_record : (s.takeBeat rest).record = s.record := rfl
@[simp] theorem takeBeat_buffer : (s.takeBeat rest).buffer n = s.buffer n := rfl
end takeBeat

end Sys2Proof.Machine
end

