-- ==== Sys2Proof/Laws/Encoding.lean ====
section
/-! SUPPORT. The command word as a number, and its fields (R43). -/
namespace Sys2Proof

/-- The concatenation of R43 as a sum. -/
theorem packCmd_toNat (op : BitVec 2) (value : ValueWord) (offset bufLen : BitVec 32) :
    (packCmd op value offset bufLen).toNat =
      op.toNat * 2 ^ 128 + value.toNat * 2 ^ 64 + offset.toNat * 2 ^ 32 + bufLen.toNat := by
  have h1 := op.isLt
  have h2 := value.isLt
  have h3 := offset.isLt
  have h4 := bufLen.isLt
  have e1 : (op ++ value).toNat = op.toNat * 2 ^ 64 + value.toNat := by
    rw [BitVec.toNat_append, Nat.shiftLeft_eq, Nat.mul_comm, ← Nat.two_pow_add_eq_or_of_lt (by omega)]
  have e2 : (op ++ value ++ offset).toNat = (op ++ value).toNat * 2 ^ 32 + offset.toNat := by
    rw [BitVec.toNat_append, Nat.shiftLeft_eq, Nat.mul_comm, ← Nat.two_pow_add_eq_or_of_lt (by omega)]
  have e3 : (op ++ value ++ offset ++ bufLen).toNat = (op ++ value ++ offset).toNat * 2 ^ 32 + bufLen.toNat := by
    rw [BitVec.toNat_append, Nat.shiftLeft_eq, Nat.mul_comm, ← Nat.two_pow_add_eq_or_of_lt (by omega)]
  change (op ++ value ++ offset ++ bufLen).toNat = _
  rw [e3, e2, e1]
  ring

theorem opField_toNat (w : CmdWord) : (opField w).toNat = w.toNat / 2 ^ 128 := by
  have := w.isLt
  simp only [opField, BitVec.extractLsb'_toNat, Nat.shiftRight_eq_div_pow]
  omega

theorem valueField_toNat (w : CmdWord) : (valueField w).toNat = w.toNat / 2 ^ 64 % 2 ^ 64 := by
  simp [valueField, BitVec.extractLsb'_toNat, Nat.shiftRight_eq_div_pow]

theorem offsetField_toNat (w : CmdWord) : (offsetField w).toNat = w.toNat / 2 ^ 32 % 2 ^ 32 := by
  simp [offsetField, BitVec.extractLsb'_toNat, Nat.shiftRight_eq_div_pow]

theorem bufLenField_toNat (w : CmdWord) : (bufLenField w).toNat = w.toNat % 2 ^ 32 := by
  simp [bufLenField, BitVec.extractLsb'_toNat]

/-- The four fields put side by side are the word. -/
theorem packCmd_fields (w : CmdWord) : packCmd (opField w) (valueField w) (offsetField w) (bufLenField w) = w := by
  apply BitVec.eq_of_toNat_eq
  rw [packCmd_toNat, opField_toNat, valueField_toNat, offsetField_toNat, bufLenField_toNat]
  have := w.isLt
  omega

section fields
variable (op : BitVec 2) (value : ValueWord) (offset bufLen : BitVec 32)

@[simp] theorem opField_packCmd : opField (packCmd op value offset bufLen) = op := by
  have h1 := op.isLt
  have h2 := value.isLt
  have h3 := offset.isLt
  have h4 := bufLen.isLt
  apply BitVec.eq_of_toNat_eq
  rw [opField_toNat, packCmd_toNat]
  omega

@[simp] theorem valueField_packCmd : valueField (packCmd op value offset bufLen) = value := by
  have h2 := value.isLt
  have h3 := offset.isLt
  have h4 := bufLen.isLt
  apply BitVec.eq_of_toNat_eq
  rw [valueField_toNat, packCmd_toNat]
  omega

@[simp] theorem offsetField_packCmd : offsetField (packCmd op value offset bufLen) = offset := by
  have h3 := offset.isLt
  have h4 := bufLen.isLt
  apply BitVec.eq_of_toNat_eq
  rw [offsetField_toNat, packCmd_toNat]
  omega

@[simp] theorem bufLenField_packCmd : bufLenField (packCmd op value offset bufLen) = bufLen := by
  have h4 := bufLen.isLt
  apply BitVec.eq_of_toNat_eq
  rw [bufLenField_toNat, packCmd_toNat]
  omega

end fields

/-- The `op` field has four values (R45). -/
theorem opField_cases (w : CmdWord) :
    opField w = 0b00#2 ∨ opField w = 0b01#2 ∨ opField w = 0b10#2 ∨ opField w = 0b11#2 := by
  generalize opField w = op
  revert op
  decide

theorem wellFormed_writeUInt64LE (value : ValueWord) (offset bufLen : Nat) :
    (Instr.writeUInt64LE value offset bufLen).wellFormed = true ↔ offset < 2 ^ 32 ∧ bufLen < 2 ^ 32 := by
  unfold Instr.wellFormed Config.offsetW Config.lenW
  rw [Bool.and_eq_true, decide_eq_true_iff, decide_eq_true_iff]

end Sys2Proof
end

