-- ==== Sys2Proof/Laws/Memory.lean ====
section
/-! SUPPORT. Lists by key, memories and buffers: what is read after a write, and that the canonical form is kept. -/
namespace Sys2Proof.Machine

section keys
variable {α : Type}

/-- Read after write, at the same key and at another. -/
theorem lookupKey_insertKey (l : List (Nat × α)) (n m : Nat) (v : α) :
    lookupKey (insertKey l n v) m = if m = n then some v else lookupKey l m := by
  induction l with
  | nil => simp [insertKey, lookupKey]
  | cons c rest ih =>
    obtain ⟨k, x⟩ := c
    unfold insertKey
    split
    · simp [lookupKey]
    · split
      · subst_vars
        by_cases h : m = k <;> simp [lookupKey, h]
      · rename_i hnk
        by_cases h : m = k
        · subst h
          simp [lookupKey, Ne.symm hnk]
        · simp [lookupKey, h, ih]

@[simp] theorem lookupKey_insertKey_self (l : List (Nat × α)) (n : Nat) (v : α) :
    lookupKey (insertKey l n v) n = some v := by
  simp [lookupKey_insertKey]

theorem lookupKey_insertKey_ne (l : List (Nat × α)) {n m : Nat} (v : α) (h : m ≠ n) :
    lookupKey (insertKey l n v) m = lookupKey l m := by
  simp [lookupKey_insertKey, h]

/-- An entry of the new list is the one set, or was there. -/
theorem mem_insertKey {l : List (Nat × α)} {n : Nat} {v : α} {c : Nat × α} (h : c ∈ insertKey l n v) :
    c = (n, v) ∨ c ∈ l := by
  induction l with
  | nil => simpa [insertKey] using h
  | cons d rest ih =>
    obtain ⟨k, x⟩ := d
    unfold insertKey at h
    split at h
    · simpa using h
    · split at h
      · rcases List.mem_cons.1 h with h | h
        · exact .inl h
        · exact .inr (List.mem_cons_of_mem _ h)
      · rcases List.mem_cons.1 h with h | h
        · exact .inr (by simp [h])
        · rcases ih h with h | h
          · exact .inl h
          · exact .inr (List.mem_cons_of_mem _ h)

theorem key_mem_insertKey {l : List (Nat × α)} {n m : Nat} {v : α} (h : m ∈ (insertKey l n v).map Prod.fst) :
    m = n ∨ m ∈ l.map Prod.fst := by
  obtain ⟨c, hc, rfl⟩ := List.mem_map.1 h
  rcases mem_insertKey hc with rfl | hc
  · exact .inl rfl
  · exact .inr (List.mem_map_of_mem hc)

/-- Setting a value keeps the canonical form. -/
theorem keysRise_insertKey {l : List (Nat × α)} (h : keysRise l) (n : Nat) (v : α) : keysRise (insertKey l n v) := by
  induction l with
  | nil => exact List.pairwise_singleton _ _
  | cons c rest ih =>
    obtain ⟨k, x⟩ := c
    simp only [keysRise, List.map_cons, List.pairwise_cons] at h
    unfold insertKey
    split
    · rename_i hnk
      simp only [keysRise, List.map_cons, List.pairwise_cons, List.mem_cons]
      refine ⟨?_, h.1, h.2⟩
      rintro m (rfl | hm)
      · exact hnk
      · exact hnk.trans (h.1 m hm)
    · split
      · rename_i hnk
        subst hnk
        simpa only [keysRise, List.map_cons, List.pairwise_cons] using h
      · rename_i hlt hne
        simp only [keysRise, List.map_cons, List.pairwise_cons]
        refine ⟨fun m hm => ?_, ih h.2⟩
        rcases key_mem_insertKey hm with rfl | hm
        · omega
        · exact h.1 m hm

theorem lookupKey_none_of_lt {l : List (Nat × α)} {n : Nat} (h : ∀ m ∈ l.map Prod.fst, n < m) : lookupKey l n = none := by
  induction l with
  | nil => rfl
  | cons c rest ih =>
    obtain ⟨k, x⟩ := c
    have hk : n < k := h k (by simp)
    rw [lookupKey, if_neg hk.ne, ih fun m hm => h m (by simp only [List.map_cons, List.mem_cons]; exact .inr hm)]

/-- Lists in canonical form that list the same are the same data. -/
theorem eq_of_lookupKey {l m : List (Nat × α)} (hl : keysRise l) (hm : keysRise m)
    (h : ∀ n, lookupKey l n = lookupKey m n) : l = m := by
  induction l generalizing m with
  | nil =>
    cases m with
    | nil => rfl
    | cons c rest => simpa [lookupKey] using h c.1
  | cons c rest ih =>
    obtain ⟨k, x⟩ := c
    cases m with
    | nil => simpa [lookupKey] using h k
    | cons d rest' =>
      obtain ⟨k', x'⟩ := d
      simp only [keysRise, List.map_cons, List.pairwise_cons] at hl hm
      have hk : k = k' := by
        rcases Nat.lt_trichotomy k k' with hlt | heq | hgt
        · have h1 := h k
          simp [lookupKey, hlt.ne, lookupKey_none_of_lt fun m hmm => hlt.trans (hm.1 m hmm)] at h1
        · exact heq
        · have h1 := h k'
          simp [lookupKey, hgt.ne, lookupKey_none_of_lt fun m hmm => hgt.trans (hl.1 m hmm)] at h1
      subst hk
      have hx : x = x' := by simpa [lookupKey] using h k
      subst hx
      rw [ih hl.2 hm.2 fun n => ?_]
      by_cases hn : n = k
      · subst hn
        rw [lookupKey_none_of_lt hl.1, lookupKey_none_of_lt hm.1]
      · simpa [lookupKey, hn] using h n

theorem mem_of_lookupKey {l : List (Nat × α)} {n : Nat} {v : α} (h : lookupKey l n = some v) : (n, v) ∈ l := by
  induction l with
  | nil => simp [lookupKey] at h
  | cons c rest ih =>
    obtain ⟨k, x⟩ := c
    by_cases hn : n = k
    · subst hn
      simp [lookupKey] at h
      simp [h]
    · simp [lookupKey, hn] at h
      exact List.mem_cons_of_mem _ (ih h)

end keys

/-! ### Memory and buffers -/

@[simp] theorem Memory.read_eq (m : Memory) (addr : Nat) : m.read addr = lookupKey m addr := by
  unfold Memory.read Memory.unlisted; split <;> simp_all

theorem Memory.wf_write {m : Memory} (h : m.wf) (addr : Nat) (b : Byte) : (m.write addr b).wf :=
  keysRise_insertKey h addr b

@[simp] theorem writeByte_capacity (b : Buffer) (addr : Nat) (x : Byte) : (b.writeByte addr x).capacity = b.capacity := rfl

theorem readByte_writeByte (b : Buffer) (addr a : Nat) (x : Byte) :
    (b.writeByte addr x).readByte a = if a = addr then some x else b.readByte a := by
  simp [Buffer.readByte, Buffer.writeByte, Memory.write, lookupKey_insertKey]

@[simp] theorem memWrite_capacity (b : Buffer) (addr : Nat) (bs : List Byte) :
    (b.memWrite addr bs).capacity = b.capacity := by
  induction bs generalizing b addr with
  | nil => rfl
  | cons x rest ih => simp [Buffer.memWrite, ih]

/-- Everything `MemWrite` does to what is read: R31. -/
theorem memWrite_readByte (b : Buffer) (addr a : Nat) (bs : List Byte) :
    (b.memWrite addr bs).readByte a =
      if addr ≤ a ∧ a < addr + bs.length then bs[a - addr]? else b.readByte a := by
  induction bs generalizing b addr with
  | nil =>
    simp [Buffer.memWrite]
  | cons x rest ih =>
    rw [Buffer.memWrite, ih, readByte_writeByte]
    by_cases ha : a = addr
    · subst ha
      simp
    · by_cases h : addr + 1 ≤ a ∧ a < addr + 1 + rest.length
      · have h' : addr ≤ a ∧ a < addr + (x :: rest).length := by simp; omega
        have hi : a - addr = (a - (addr + 1)) + 1 := by omega
        rw [if_pos h, if_pos h', hi, List.getElem?_cons_succ]
      · have h' : ¬(addr ≤ a ∧ a < addr + (x :: rest).length) := by simp; omega
        rw [if_neg h, if_neg h', if_neg ha]

/-- A store inside the buffer keeps it in canonical form. -/
theorem Buffer.wf_writeByte {b : Buffer} (h : b.wf) {addr : Nat} (ha : addr < b.capacity) (x : Byte) :
    (b.writeByte addr x).wf := by
  refine ⟨Memory.wf_write h.1 addr x, fun c hc => ?_⟩
  rcases mem_insertKey hc with rfl | hc
  · exact ha
  · exact h.2 c hc

/-- `MemWrite` of a window inside the buffer keeps it in canonical form. -/
theorem Buffer.wf_memWrite {b : Buffer} (h : b.wf) {addr : Nat} {bs : List Byte} (ha : addr + bs.length ≤ b.capacity) :
    (b.memWrite addr bs).wf := by
  induction bs generalizing b addr with
  | nil => exact h
  | cons x rest ih =>
    simp only [List.length_cons] at ha
    exact ih (Buffer.wf_writeByte h (by omega) x) (by simp; omega)

theorem Buffer.wf_absent : Buffer.absent.wf := by decide

/-- Buffers in canonical form that read the same are the same data. -/
theorem Buffer.eq_of_readByte {b c : Buffer} (hb : b.wf) (hc : c.wf) (hcap : b.capacity = c.capacity)
    (h : ∀ a, b.readByte a = c.readByte a) : b = c := by
  obtain ⟨bc, bm⟩ := b
  obtain ⟨cc, cm⟩ := c
  simp only at hcap
  subst hcap
  rw [Buffer.mk.injEq]
  exact ⟨rfl, eq_of_lookupKey hb.1 hc.1 fun n => by simpa [Buffer.readByte] using h n⟩

/-! ### The buffers of a state -/

theorem setBuffer_buffer (s : State) (n m : BufName) (b : Buffer) :
    (s.setBuffer n b).buffer m = if m = n then b else s.buffer m := by
  unfold State.buffer
  rw [setBuffer_buffers, lookupKey_insertKey]
  by_cases h : m = n <;> simp [h]

@[simp] theorem setBuffer_buffer_self (s : State) (n : BufName) (b : Buffer) : (s.setBuffer n b).buffer n = b := by
  simp [setBuffer_buffer]

theorem buffer_wf {s : State} (h : ∀ b ∈ s.buffers, Buffer.wf b.2) (n : BufName) : (s.buffer n).wf := by
  unfold State.buffer
  split
  · rename_i b hb
    exact h _ (mem_of_lookupKey hb)
  · exact Buffer.wf_absent

theorem attached_wf {s : State} (h : ∀ b ∈ s.buffers, Buffer.wf b.2) : s.attached.wf := by
  unfold State.attached
  split
  · exact buffer_wf h _
  · exact Buffer.wf_absent

/-- Memory attached that has a byte has a name: there is a buffer on the port. -/
theorem memPort_of_capacity {s : State} (h : 0 < s.attached.capacity) : ∃ n, s.memPort = some n := by
  unfold State.attached at h
  split at h
  · exact ⟨_, by assumption⟩
  · simp [Buffer.absent] at h

theorem setBuffer_inv {s : State} (h : s.Inv) (n : BufName) {b : Buffer} (hb : b.wf) : (s.setBuffer n b).Inv := by
  refine ⟨keysRise_insertKey h.1 n b, fun c hc => ?_, h.2.2.1, h.2.2.2⟩
  rcases mem_insertKey hc with rfl | hc
  · exact hb
  · exact h.2.1 c hc

theorem setAttached_inv {s : State} (h : s.Inv) {b : Buffer} (hb : b.wf) : (s.setAttached b).Inv := by
  unfold State.setAttached
  split
  · exact setBuffer_inv h _ hb
  · exact h

theorem deliver_inv {s : State} (h : s.Inv) {r : Response} (hr : r.wf = true) : (s.deliver r).Inv := by
  refine ⟨h.1, h.2.1, ?_, ?_⟩
  · simpa [or_imp, forall_and, hr] using h.2.2.1
  · simpa [or_imp, forall_and, hr] using h.2.2.2

end Sys2Proof.Machine
end

