-- ==== Sys2Proof/Laws/Operands.lean ====
section
/-! SUPPORT. What the validation answers, and the split and its bytes as numbers. -/
namespace Sys2Proof.Machine

/-! ### Validation -/

theorem ratFloor_natCast (n : Nat) : ((n : Rat)).floor = (n : Int) := by
  simpa using Rat.floor_intCast (n : Int)

theorem integral_fin_iff (q : Rat) : integral (.fin q) ↔ q = (q.floor : Rat) := by
  constructor
  · rintro ⟨z, rfl⟩
    rw [Rat.floor_intCast]
  · exact fun h => ⟨_, h⟩

theorem integral_natCast (n : Nat) : integral (.fin (n : Rat)) := ⟨n, by simp⟩

theorem inRange_natCast {n max : Nat} (h : n ≤ max) : inRange max (.fin (n : Rat)) :=
  ⟨by positivity, by exact_mod_cast h⟩

/-- The first check: R57, R66. -/
theorem validate_of_not_inRange {max : Nat} {v : Num} (h : ¬inRange max v) :
    validate max v = .error .rangeViolation := by
  cases v with
  | fin q =>
    simp only [inRange, not_and, not_le] at h
    by_cases hq : q < 0
    · rw [validate, if_pos hq]
    · rw [validate, if_neg hq, if_pos (h (not_lt.1 hq))]
  | posInf => rfl
  | negInf => rfl
  | nan => rfl

/-- The second check: R58, R66. -/
theorem validate_of_not_integral {max : Nat} {v : Num} (h : inRange max v) (h' : ¬integral v) :
    validate max v = .error .nonIntegerViolation := by
  cases v with
  | fin q =>
    obtain ⟨h0, h1⟩ := h
    rw [integral_fin_iff] at h'
    rw [validate, if_neg (not_lt.2 h0), if_neg (not_lt.2 h1), if_pos h']
  | posInf => exact h.elim
  | negInf => exact h.elim
  | nan => exact h.elim

/-- What is accepted: R58. -/
theorem validate_natCast {max n : Nat} (h : n ≤ max) : validate max (.fin (n : Rat)) = .ok n := by
  have h0 : ¬((n : Rat) < 0) := not_lt.2 (Nat.cast_nonneg n)
  have h1 : ¬((max : Rat) < (n : Rat)) := not_lt.2 (by exact_mod_cast h)
  rw [validate, if_neg h0, if_neg h1, ratFloor_natCast]
  simp

/-- An operand in range that is an integer is a natural number of that range. -/
theorem eq_natCast_of_inRange {max : Nat} {v : Num} (h : inRange max v) (h' : integral v) :
    ∃ n : Nat, n ≤ max ∧ v = .fin (n : Rat) := by
  cases v with
  | fin q =>
    obtain ⟨z, rfl⟩ := h'
    obtain ⟨h0, h1⟩ := h
    have hz : 0 ≤ z := by exact_mod_cast h0
    obtain ⟨n, rfl⟩ := Int.eq_ofNat_of_zero_le hz
    exact ⟨n, by exact_mod_cast h1, by simp⟩
  | posInf => exact h.elim
  | negInf => exact h.elim
  | nan => exact h.elim

/-- Everything the validation can answer. -/
theorem validate_cases (max : Nat) (v : Num) :
    (¬inRange max v ∧ validate max v = .error .rangeViolation) ∨
    (inRange max v ∧ ¬integral v ∧ validate max v = .error .nonIntegerViolation) ∨
    (∃ n : Nat, n ≤ max ∧ v = .fin (n : Rat) ∧ validate max v = .ok n) := by
  by_cases h : inRange max v
  · by_cases h' : integral v
    · obtain ⟨n, hn, rfl⟩ := eq_natCast_of_inRange h h'
      exact .inr (.inr ⟨n, hn, rfl, validate_natCast hn⟩)
    · exact .inr (.inl ⟨h, h', validate_of_not_integral h h'⟩)
  · exact .inl ⟨h, validate_of_not_inRange h⟩

theorem validate_eq_ok {max n : Nat} {v : Num} (h : validate max v = .ok n) : n ≤ max ∧ v = .fin (n : Rat) := by
  rcases validate_cases max v with ⟨_, h'⟩ | ⟨_, _, h'⟩ | ⟨m, hm, hv, h'⟩ <;> rw [h] at h'
  · cases h'
  · cases h'
  · cases h'
    exact ⟨hm, hv⟩

/-! ### The split -/

theorem split53_high (v : Nat) (h : v ≤ Config.valueMax) : (split53 v).1.toNat = v / 4294967296 := by
  simp only [split53, Config.limbMod, BitVec.toNat_ofNat]
  simp only [Config.valueMax] at h
  omega

theorem split53_low (v : Nat) : (split53 v).2.toNat = v % 4294967296 := by
  simp only [split53, Config.limbMod, BitVec.toNat_ofNat]
  omega

/-! ### Bytes -/

@[simp] theorem le32_length (w : Word) : (le32 w).length = 4 := rfl
@[simp] theorem be16_length (h : BitVec 16) : (be16 h).length = 2 := rfl
@[simp] theorem bytes53_length (v : Nat) : (bytes53 v).length = 8 := rfl

theorem decLe64_append (a b : List Byte) : decLe64 (a ++ b) = decLe64 a + 256 ^ a.length * decLe64 b := by
  induction a with
  | nil => simp [decLe64]
  | cons x rest ih =>
    simp only [List.cons_append, decLe64, ih, List.length_cons, pow_succ]
    ring

theorem decLe64_le32 (w : Word) : decLe64 (le32 w) = w.toNat := by
  have h := w.isLt
  simp only [le32, decLe64, BitVec.extractLsb'_toNat, Nat.shiftRight_eq_div_pow]
  omega

theorem decBe16_be16 (h : BitVec 16) : decBe16 (be16 h) = h.toNat := by
  have := h.isLt
  simp only [be16, decBe16, BitVec.extractLsb'_toNat, Nat.shiftRight_eq_div_pow]
  omega

/-! ### The window of `writeUInt64LE` -/

theorem memWrite_append (b : Buffer) (addr : Nat) (xs ys : List Byte) :
    b.memWrite addr (xs ++ ys) = (b.memWrite addr xs).memWrite (addr + xs.length) ys := by
  induction xs generalizing b addr with
  | nil => rfl
  | cons x rest ih =>
    rw [List.cons_append, Buffer.memWrite, ih, Buffer.memWrite, List.length_cons]
    congr 1
    omega

/-- The two word writes are one write of the eight bytes that `encodeUInt53LE` returns. -/
theorem writeWindow_eq (b : Buffer) (offset n : Nat) : writeWindow b offset n = b.memWrite offset (bytes53 n) := by
  rw [bytes53, memWrite_append]
  rfl

@[simp] theorem writeWindow_capacity (b : Buffer) (offset n : Nat) : (writeWindow b offset n).capacity = b.capacity := by
  simp [writeWindow_eq]

theorem writeWindow_readByte (b : Buffer) (offset n a : Nat) :
    (writeWindow b offset n).readByte a =
      if offset ≤ a ∧ a < offset + 8 then (bytes53 n)[a - offset]? else b.readByte a := by
  rw [writeWindow_eq, memWrite_readByte, bytes53_length]

theorem Buffer.wf_writeWindow {b : Buffer} (h : b.wf) {offset : Nat} (n : Nat) (ho : offset + 8 ≤ b.capacity) :
    (writeWindow b offset n).wf := by
  rw [writeWindow_eq]
  exact Buffer.wf_memWrite h (by simpa using ho)

end Sys2Proof.Machine
end

