-- ==== Sys2Proof/Laws/Exec.lean ====
section
/-! SUPPORT. What a command can do: one lemma an operation, and from them one lemma for `exec`. -/
namespace Sys2Proof.Machine

theorem raise_eq (e : ErrorCondition) (s : State) : raise e s = .next (s.deliver (.fault e)) := rfl
theorem answer_eq (r : Response) (s : State) : answer r s = .next (s.deliver r) := rfl

@[simp] theorem raiseOutOfBounds_default (offset bufLen n : Nat) (s : State) :
    raiseOutOfBounds Config.oobPartial offset bufLen n s = .next (s.deliver (.fault .outOfBounds)) := rfl

/-- Everything the partial write of U3 does to what is read. -/
theorem memWriteSome_readByte (landed : Nat → Bool) (b : Buffer) (addr i a : Nat) (bs : List Byte) :
    (memWriteSome landed b addr i bs).readByte a =
      if addr + i ≤ a ∧ a < addr + i + bs.length ∧ landed (a - addr) = true then bs[a - addr - i]? else b.readByte a := by
  induction bs generalizing b i with
  | nil =>
    rw [memWriteSome, if_neg]
    simp only [List.length_nil]
    omega
  | cons x rest ih =>
    rw [memWriteSome, ih]
    by_cases h1 : addr + (i + 1) ≤ a ∧ a < addr + (i + 1) + rest.length ∧ landed (a - addr) = true
    · have h2 : addr + i ≤ a ∧ a < addr + i + (x :: rest).length ∧ landed (a - addr) = true :=
        ⟨by omega, by simp only [List.length_cons]; omega, h1.2.2⟩
      rw [if_pos h1, if_pos h2, show a - addr - i = (a - addr - (i + 1)) + 1 by omega, List.getElem?_cons_succ]
    · rw [if_neg h1]
      by_cases ha : a = addr + i
      · subst ha
        by_cases hl : landed i = true <;> simp [hl, readByte_writeByte]
      · have h2 : ¬(addr + i ≤ a ∧ a < addr + i + (x :: rest).length ∧ landed (a - addr) = true) := by
          simp only [List.length_cons]
          rintro ⟨h3, h4, h5⟩
          exact h1 ⟨by omega, by omega, h5⟩
        rw [if_neg h2]
        split
        · rw [readByte_writeByte, if_neg ha]
        · rfl

/-- What a value operation delivers for an operand of its validation. -/
def verdict (accepted : Nat → Response) : Except ErrorCondition Nat → Response
  | .error e => .fault e
  | .ok n => accepted n

theorem uintHighLow_eq (v : Num) (s : State) :
    uintHighLow v s = .next (s.deliver (verdict (fun n => .pair (split53 n).1 (split53 n).2) (validate53 v))) := by
  unfold uintHighLow; split <;> simp_all [verdict, raise_eq, answer_eq]

theorem encodeUInt53LE_eq (v : Num) (s : State) :
    encodeUInt53LE v s = .next (s.deliver (verdict (fun n => .bytes (bytes53 n)) (validate53 v))) := by
  unfold encodeUInt53LE; split <;> simp_all [verdict, raise_eq, answer_eq]

theorem encodeUInt16BE_eq (v : Num) (s : State) :
    encodeUInt16BE v s = .next (s.deliver (verdict (fun n => .bytes (be16 (BitVec.ofNat 16 n))) (validate16 v))) := by
  unfold encodeUInt16BE; split <;> simp_all [verdict, raise_eq, answer_eq]

/-- `writeUInt64LE` for each verdict on the operand, the host having kept its duty. -/
theorem writeUInt64LE_eq (v : Num) (offset bufLen : Nat) (s : State) (h : bufLen ≤ s.attached.capacity) :
    writeUInt64LE v offset bufLen s =
      match validate53 v with
      | .error e => .next (s.deliver (.fault e))
      | .ok n =>
        if bufLen < offset + 8 then .next (s.deliver (.fault .outOfBounds))
        else .next ((s.setAttached (writeWindow s.attached offset n)).deliver .done) := by
  rw [writeUInt64LE, if_neg (not_lt.2 h)]
  rfl

/-- A next state of a command: one response is delivered, and memory is as before, or the command is a
`writeUInt64LE` that stored its window inside the buffer attached. -/
theorem exec_next {i : Instr} {s t : State} (h : exec i s = .next t) :
    (∃ r : Response, r.wf = true ∧ t = s.deliver r) ∨
    (∃ value offset bufLen n, i = .writeUInt64LE value offset bufLen ∧ validate53 (val value) = .ok n ∧
      offset + 8 ≤ bufLen ∧ bufLen ≤ s.attached.capacity ∧
      t = (s.setAttached (writeWindow s.attached offset n)).deliver .done) := by
  have hwf : ∀ n, n ≤ Config.valueMax → (Response.pair (split53 n).1 (split53 n).2).wf = true := fun n hn => by
    simp only [Response.wf, split53_high n hn, Config.highMax, decide_eq_true_eq]
    simp only [Config.valueMax] at hn
    omega
  cases i with
  | uintHighLow value =>
    simp only [exec, execUintHighLow, uintHighLow_eq, Host.Outcome.next.injEq] at h
    refine .inl ⟨_, ?_, h.symm⟩
    cases hv : validate53 (val value) with
    | error e => rfl
    | ok n => exact hwf n (validate_eq_ok hv).1
  | encodeUInt53LE value =>
    simp only [exec, execEncodeUInt53LE, encodeUInt53LE_eq, Host.Outcome.next.injEq] at h
    refine .inl ⟨_, ?_, h.symm⟩
    cases validate53 (val value) <;> simp [verdict, Response.wf]
  | encodeUInt16BE value =>
    simp only [exec, execEncodeUInt16BE, encodeUInt16BE_eq, Host.Outcome.next.injEq] at h
    refine .inl ⟨_, ?_, h.symm⟩
    cases validate16 (val value) <;> simp [verdict, Response.wf]
  | writeUInt64LE value offset bufLen =>
    simp only [exec, execWriteUInt64LE] at h
    by_cases hc : s.attached.capacity < bufLen
    · simp [writeUInt64LE, hc] at h
    · rw [writeUInt64LE_eq _ _ _ _ (not_lt.1 hc)] at h
      cases hv : validate53 (val value) with
      | error e =>
        simp only [hv, Host.Outcome.next.injEq] at h
        exact .inl ⟨_, rfl, h.symm⟩
      | ok n =>
        simp only [hv] at h
        split at h
        · exact .inl ⟨_, rfl, by simpa using h.symm⟩
        · exact .inr ⟨value, offset, bufLen, n, rfl, hv, by omega, not_lt.1 hc, by simpa using h.symm⟩

/-- A command that keeps the host's duty ends with a next state. -/
theorem exec_of_honest {i : Instr} {s : State} (h : honest i s = true) : ∃ t, exec i s = .next t := by
  cases i with
  | uintHighLow value => exact ⟨_, uintHighLow_eq _ _⟩
  | encodeUInt53LE value => exact ⟨_, encodeUInt53LE_eq _ _⟩
  | encodeUInt16BE value => exact ⟨_, encodeUInt16BE_eq _ _⟩
  | writeUInt64LE value offset bufLen =>
    simp only [honest, decide_eq_true_eq] at h
    rw [exec, execWriteUInt64LE, writeUInt64LE_eq _ _ _ _ h]
    split
    · exact ⟨_, rfl⟩
    · split <;> exact ⟨_, rfl⟩

/-- A command stops only by the refusal that R102 asks for. -/
theorem exec_not_fault (i : Instr) (s : State) (r : Fault) : exec i s ≠ .fault r := by
  cases i with
  | uintHighLow value => rw [exec, execUintHighLow, uintHighLow_eq]; exact nofun
  | encodeUInt53LE value => rw [exec, execEncodeUInt53LE, encodeUInt53LE_eq]; exact nofun
  | encodeUInt16BE value => rw [exec, execEncodeUInt16BE, encodeUInt16BE_eq]; exact nofun
  | writeUInt64LE value offset bufLen =>
    by_cases h : s.attached.capacity < bufLen
    · rw [exec, execWriteUInt64LE, writeUInt64LE, if_pos h]; exact nofun
    · obtain ⟨t, ht⟩ := exec_of_honest (i := .writeUInt64LE value offset bufLen) (s := s) (by simpa [honest] using h)
      rw [ht]
      exact nofun

end Sys2Proof.Machine
end

