-- ==== Sys2Proof/Laws/PerInstr.lean ====
section
/-! SUPPORT. Per instruction: the listing word of an instruction matches its row of spec/opcode_table.json. -/
namespace Sys2Proof.Laws

/-- The row's `mask`, the same for all four. -/
def OpCode.mask : CmdWord := 0x300000000000000000000000000000000#130

/-- The row's `match`. -/
def OpCode.rowMatch : Instr → CmdWord
  | .uintHighLow _ => 0x000000000000000000000000000000000#130
  | .encodeUInt53LE _ => 0x100000000000000000000000000000000#130
  | .encodeUInt16BE _ => 0x200000000000000000000000000000000#130
  | .writeUInt64LE _ _ _ => 0x300000000000000000000000000000000#130

/-- R44: the word matches its row under the mask. -/
def OpCode.Statement (i : Instr) : Prop := encode i &&& OpCode.mask = OpCode.rowMatch i

/-- Under the mask a packed word is its `op` field. -/
theorem packCmd_and_mask (op : BitVec 2) (value : ValueWord) (offset bufLen : BitVec 32) :
    packCmd op value offset bufLen &&& OpCode.mask = packCmd op 0#64 0#32 0#32 := by
  have hm : OpCode.mask = packCmd 3#2 0#64 0#32 0#32 := by decide
  rw [hm]
  unfold packCmd
  rw [BitVec.and_append, BitVec.and_append, BitVec.and_append]
  simp only [BitVec.and_zero]
  congr 3
  revert op
  decide

theorem OpCode.uintHighLow (value : ValueWord) : OpCode.Statement (.uintHighLow value) := by
  rw [OpCode.Statement, encode, packCmd_and_mask, OpCode.rowMatch]
  decide

theorem OpCode.encodeUInt53LE (value : ValueWord) : OpCode.Statement (.encodeUInt53LE value) := by
  rw [OpCode.Statement, encode, packCmd_and_mask, OpCode.rowMatch]
  decide

theorem OpCode.encodeUInt16BE (value : ValueWord) : OpCode.Statement (.encodeUInt16BE value) := by
  rw [OpCode.Statement, encode, packCmd_and_mask, OpCode.rowMatch]
  decide

theorem OpCode.writeUInt64LE (value : ValueWord) (offset bufLen : Nat) :
    OpCode.Statement (.writeUInt64LE value offset bufLen) := by
  rw [OpCode.Statement, encode, packCmd_and_mask, OpCode.rowMatch]
  decide

end Sys2Proof.Laws
end

