-- ==== Sys2Proof/Laws/Step.lean ====
section
/-! SUPPORT. What an access, the accesses of one time, and a step can do. -/
namespace Sys2Proof.Machine

/-! ### The host lengthens a buffer -/

theorem ensureCapacity_le (s : State) (n : BufName) (cap : Nat) : cap ≤ ((s.ensureCapacity n cap).buffer n).capacity := by
  unfold State.ensureCapacity
  split
  · assumption
  · simp

theorem ensureCapacity_readByte (s : State) (n m : BufName) (cap a : Nat) :
    ((s.ensureCapacity n cap).buffer m).readByte a = (s.buffer m).readByte a := by
  unfold State.ensureCapacity
  split
  · rfl
  · rw [setBuffer_buffer]
    split
    · rename_i h
      subst h
      rfl
    · rfl

@[simp] theorem ensureCapacity_queue (s : State) (n : BufName) (cap : Nat) : (s.ensureCapacity n cap).queue = s.queue := by
  unfold State.ensureCapacity; split <;> rfl
@[simp] theorem ensureCapacity_record (s : State) (n : BufName) (cap : Nat) :
    (s.ensureCapacity n cap).record = s.record := by
  unfold State.ensureCapacity; split <;> rfl

/-! ### Which accesses of one time exclude each other -/

theorem spansMeet_comm (x y : BufName × Nat × Nat) : spansMeet x y = spansMeet y x := by
  simp only [spansMeet, Bool.and_assoc, BEq.comm (a := x.1)]
  rw [Bool.and_comm (decide _)]

theorem Access.meets_comm (a b : Access) : a.meets b = b.meets a := by
  simp only [Access.meets, Bool.or_comm a.isCommand]
  cases a.span <;> cases b.span <;> simp [spansMeet_comm]

/-- An entry with two accesses that meet overlaps, wherever the two stand in it. -/
theorem overlapping_of_meets {a b : Access} (h : a.meets b = true) (l m r : List Access) :
    overlapping (l ++ a :: (m ++ b :: r)) = true := by
  induction l with
  | nil => simp [overlapping, h]
  | cons c l ih => rw [List.cons_append, overlapping, ih, Bool.or_true]

theorem resetInStep_eq_true_iff (beat : List Access) :
    resetInStep beat = true ↔ .reset ∈ beat ∧ ∃ w buf, .command w buf ∈ beat := by
  simp only [resetInStep, Bool.and_eq_true, List.any_eq_true]
  constructor
  · rintro ⟨⟨a, ha, h⟩, b, hb, h'⟩
    cases a <;> cases h
    cases b <;> cases h'
    exact ⟨ha, _, _, hb⟩
  · rintro ⟨h, w, buf, h'⟩
    exact ⟨⟨_, h, rfl⟩, _, h', rfl⟩

/-- What the statements call touching a window is a meeting. -/
theorem touchesWindow.meets {a b : Access} (h : touchesWindow a b) : a.meets b = true := by
  obtain ⟨w, n, v, o, l, rfl, hd, ⟨w', v', o', l', rfl, hd', h1, h2⟩ | ⟨d, x, rfl, h1, h2⟩ | ⟨d, rfl, h1, h2⟩⟩ := h
  · simp [Access.meets, Access.isCommand, Access.span, hd, hd', spansMeet, h1, h2]
  · simp [Access.meets, Access.isCommand, Access.span, hd, spansMeet, h2, Nat.lt_succ_of_le h1]
  · simp [Access.meets, Access.isCommand, Access.span, hd, spansMeet, h2, Nat.lt_succ_of_le h1]

/-! ### Accesses and steps -/

/-- Everything an access can do when it gives a next state. -/
theorem perform_next {a : Access} {s t : State} (h : perform a s = .next t) :
    (∃ word buf, a = .command word buf ∧ exec (decode word) (s.withPort buf) = .next t) ∨
    (∃ n addr byte, a = .hostWrite n addr byte ∧ addr < (s.buffer n).capacity ∧
      t = s.setBuffer n ((s.buffer n).writeByte addr byte)) ∨
    (∃ n addr, a = .hostRead n addr ∧ addr < (s.buffer n).capacity ∧ t = s) ∨
    (a = .reset ∧ t = { s with block := (), responses := [] }) := by
  cases a with
  | command word buf => exact .inl ⟨word, buf, rfl, h⟩
  | hostWrite n addr byte =>
    simp only [perform] at h
    split at h
    · exact .inr (.inl ⟨n, addr, byte, rfl, by assumption, by simpa using h.symm⟩)
    · cases h
  | hostRead n addr =>
    simp only [perform] at h
    split at h
    · exact .inr (.inr (.inl ⟨n, addr, rfl, by assumption, by simpa using h.symm⟩))
    · cases h
  | reset => exact .inr (.inr (.inr ⟨rfl, by simpa [perform] using h.symm⟩))

/-- What every access keeps, the accesses of one time keep. -/
theorem performAll_keeps {P : State → Prop} (hp : ∀ a s t, P s → perform a s = .next t → P t) {beat : List Access}
    {s t : State} (hs : P s) (h : performAll beat s = .next t) : P t := by
  induction beat generalizing s with
  | nil =>
    simp only [performAll, Host.Outcome.next.injEq] at h
    exact h ▸ hs
  | cons a rest ih =>
    rw [performAll] at h
    cases ha : perform a s with
    | next u =>
      rw [ha] at h
      exact ih (hp a s u hs ha) h
    | fault r => rw [ha] at h; cases h
    | refused r => rw [ha] at h; cases h

/-- Everything a step can do when it gives a next state. -/
theorem step_next {s t : State} (h : step s = .next t) :
    (s.queue = [] ∧ t = s) ∨
    (∃ beat rest, s.queue = beat :: rest ∧ resetInStep beat = false ∧ overlapping beat = false ∧
      performAll beat (s.takeBeat rest) = .next t) := by
  unfold step at h
  split at h
  · exact .inl ⟨by assumption, by simpa using h.symm⟩
  · rename_i beat rest hq
    unfold runBeat at h
    split at h
    · cases h
    · split at h
      · cases h
      · exact .inr ⟨beat, rest, hq, by simp_all, by simp_all, h⟩

/-- What taking an entry of the queue and every access keep, a step keeps. -/
theorem step_keeps {P : State → Prop} (htake : ∀ s rest, P s → P (s.takeBeat rest))
    (hp : ∀ a s t, P s → perform a s = .next t → P t) {s t : State} (hs : P s) (h : step s = .next t) : P t := by
  rcases step_next h with ⟨_, rfl⟩ | ⟨beat, rest, _, _, _, h⟩
  · exact hs
  · exact performAll_keeps hp (htake s rest hs) h

/-- A queue whose next entry is one access: the step is that access. -/
theorem step_single {s : State} {a : Access} {rest : List (List Access)} (h : s.queue = [a] :: rest) :
    step s = perform a (s.takeBeat rest) := by
  have h1 : resetInStep [a] = false := by cases a <;> rfl
  have h2 : overlapping [a] = false := rfl
  simp only [step, h, runBeat, h1, h2, performAll]
  cases perform a (s.takeBeat rest) <;> rfl

/-- A queue whose next entry is one command: the step is that command. -/
theorem step_command {s : State} {word : CmdWord} {buf : Option BufName} {rest : List (List Access)}
    (h : s.queue = [.command word buf] :: rest) :
    step s = exec (decode word) ((s.takeBeat rest).withPort buf) :=
  step_single h

end Sys2Proof.Machine
end

