-- ==== Sys2Proof/Laws/Value.lean ====
section
/-! SUPPORT. The value word: its fields as numbers, and its magnitude as a rational. -/
namespace Sys2Proof.Machine

/-- The three fields of a value word are the whole of it (R47). -/
theorem valueWord_toNat (w : ValueWord) :
    w.toNat = (signField w).toNat * 2 ^ 63 + (expField w).toNat * 2 ^ 52 + (fracField w).toNat := by
  have := w.isLt
  simp only [signField, expField, fracField, BitVec.extractLsb'_toNat, Nat.shiftRight_eq_div_pow]
  omega

theorem signField_cases (w : ValueWord) :
    (signField w = 0#1 ∧ (signField w).toNat = 0) ∨ (signField w = 1#1 ∧ (signField w).toNat = 1) := by
  generalize signField w = s
  revert s
  decide

/-- `scaled m k` is the product it stands for. -/
theorem scaled_eq (m k : Nat) : scaled m k = (m : Rat) * (2 : Rat) ^ ((k : Int) - 1075) := by
  unfold scaled
  split
  · rename_i h
    rw [Rat.mkRat_one, show (k : Int) - 1075 = ((k - 1075 : Nat) : Int) by omega, zpow_natCast]
    push_cast
    rfl
  · rename_i h
    rw [Rat.mkRat_eq_div, show (k : Int) - 1075 = -((1075 - k : Nat) : Int) by omega, zpow_neg, zpow_natCast]
    push_cast
    rfl

/-- A fraction is an integer exactly when its denominator divides its numerator. -/
theorem integral_div_iff (m d : Nat) (hd : 0 < d) : integral (.fin ((m : Rat) / (d : Rat))) ↔ m % d = 0 := by
  have hd' : (d : Rat) ≠ 0 := by positivity
  constructor
  · rintro ⟨z, hz⟩
    rw [div_eq_iff hd'] at hz
    have hm : (m : Int) = z * d := by exact_mod_cast hz
    have hd : (d : Int) ∣ m := ⟨z, by rw [hm]; ring⟩
    exact Nat.mod_eq_zero_of_dvd (Int.natCast_dvd_natCast.1 hd)
  · intro h
    obtain ⟨k, hk⟩ := Nat.dvd_of_mod_eq_zero h
    exact ⟨k, by rw [div_eq_iff hd', hk]; push_cast; ring⟩

end Sys2Proof.Machine
end

