-- ==== Sys2Proof/Tests/Slice0.lean ====
section
/-! SUPPORT. The model's own tests, their expected results from 95_test_vectors.md or worked by hand from the rule named,
and for every statement with hypotheses a witness that meets them. -/
namespace Sys2Proof.Tests
open Sys2Proof Sys2Proof.Machine

/-! ### WellFormed refuses what the ports cannot carry -/

theorem test_offset_wider_than_the_port_is_ill_formed :
    (Instr.writeUInt64LE 0#64 (2 ^ 32) 0).wellFormed = false := by decide
theorem test_bufLen_wider_than_the_port_is_ill_formed :
    (Instr.writeUInt64LE 0#64 0 (2 ^ 32)).wellFormed = false := by decide
theorem test_widest_operands_are_well_formed :
    (Instr.writeUInt64LE 0#64 (2 ^ 32 - 1) (2 ^ 32 - 1)).wellFormed = true := by decide

/-! ### Decoding: words written out field by field from R43 and R44, op value offset buf_len -/

/-- X3: `op` 00, value 0x41F0000000000000. -/
theorem test_decode_uintHighLow :
    decode (0b00#2 ++ 0x41F0000000000000#64 ++ 0x00000000#32 ++ 0x00000000#32 : BitVec 130) =
      .uintHighLow 0x41F0000000000000#64 := by decide
/-- X1: `op` 01; the unread fields carry ones and are ignored (R46). -/
theorem test_decode_encodeUInt53LE :
    decode (0b01#2 ++ 0x3FF0000000000000#64 ++ 0xFFFFFFFF#32 ++ 0xFFFFFFFF#32 : BitVec 130) =
      .encodeUInt53LE 0x3FF0000000000000#64 := by decide
/-- X2: `op` 10. -/
theorem test_decode_encodeUInt16BE :
    decode (0b10#2 ++ 0x4070000000000000#64 ++ 0x00000000#32 ++ 0x00000000#32 : BitVec 130) =
      .encodeUInt16BE 0x4070000000000000#64 := by decide
/-- R71's example: `op` 11, value 1, offset 2, buf_len 10. -/
theorem test_decode_writeUInt64LE :
    decode (0b11#2 ++ 0x3FF0000000000000#64 ++ 0x00000002#32 ++ 0x0000000A#32 : BitVec 130) =
      .writeUInt64LE 0x3FF0000000000000#64 2 10 := by decide
/-- P4's second line, as its listing writes it. -/
theorem test_encode_writeUInt64LE :
    encode (.writeUInt64LE 0x41F0203040500000#64 4 12) = 0x341F0203040500000000000040000000C#130 := by decide
/-- R45: a fifth operation does not exist. -/
theorem test_bit_130_is_no_command : decodeTableWord 136 (2 ^ 130) = none := by decide
theorem test_table_word_of_row_four :
    decodeTableWord 136 0x300000000000000000000000000000000 = some (.writeUInt64LE 0#64 0 0) := by decide

/-! ### Value words (K and V of 95_test_vectors.md) -/

/-- K2, S17: negative zero is zero. -/
theorem test_negative_zero : val 0x8000000000000000#64 = .fin 0 := by decide
/-- V6: a negative fraction is out of range before it is fractional. -/
theorem test_minus_half : validate53 (val 0xBFE0000000000000#64) = .error .rangeViolation := by decide
/-- K14: 2^53 - 1. -/
theorem test_largest_accepted : validate53 (val 0x433FFFFFFFFFFFFF#64) = .ok 9007199254740991 := by decide
/-- K6: 2^53. -/
theorem test_next_is_rejected : validate53 (val 0x4340000000000000#64) = .error .rangeViolation := by decide
/-- K15: 2^52 - 0.5, by value and by bits. -/
theorem test_largest_fraction :
    validate53 (val 0x432FFFFFFFFFFFFF#64) = .error .nonIntegerViolation ∧
    classify 0x432FFFFFFFFFFFFF#64 = .error .nonIntegerViolation := by decide
/-- K7, V16: the smallest positive subnormal. -/
theorem test_smallest_subnormal : validate53 (val 0x0000000000000001#64) = .error .nonIntegerViolation := by
  decide +kernel
/-- V4: 1e300. -/
theorem test_huge : validate53 (val 0x7E37E43C8800759C#64) = .error .rangeViolation := by decide +kernel
/-- S16: 1234567890123456. -/
theorem test_wordOfNat : wordOfNat 1234567890123456 = 0x43118B54F22AEB00#64 := by decide

/-! ### One step of each instruction -/

/-- The next state, where there is one. -/
def after : Host.Outcome State Fault Refusal → Option State
  | .next t => some t
  | .fault _ => none
  | .refused _ => none

/-- The start of part 2.5: BUF = 12 bytes, all `5A`, on the memory port. -/
def buf12 : Buffer where
  capacity := 12
  cells    := (List.range 12).map fun a => (a, 0x5A#8)

def start : State := { State.reset with memPort := some 0, buffers := [(0, buf12)] }

/-- What the response ports show after one command. -/
def responsesOf (i : Instr) : Option (List Response) := (after (exec i start)).map State.responses

/-- The bytes of BUF after one command. -/
def bytesOf (i : Instr) : Option (List (Option Byte)) :=
  (after (exec i start)).map fun t => (List.range 12).map (t.buffer 0).readByte

/-- S11: 2^40 + 2^31. -/
theorem test_uintHighLow_high_and_bit_31 :
    responsesOf (.uintHighLow 0x4270080000000000#64) = some [.pair 0x00000100#32 0x80000000#32] := by decide
/-- V18: 4294967295.5. -/
theorem test_uintHighLow_fraction :
    responsesOf (.uintHighLow 0x41EFFFFFFFF00000#64) = some [.fault .nonIntegerViolation] := by decide
/-- T15: 0x0123456789ABCD. -/
theorem test_encodeUInt53LE_bytes :
    responsesOf (.encodeUInt53LE 0x42F23456789ABCD0#64) =
      some [.bytes [0xCD#8, 0xAB#8, 0x89#8, 0x67#8, 0x45#8, 0x23#8, 0x01#8, 0x00#8]] := by decide
/-- T21: 2^53. -/
theorem test_encodeUInt53LE_range :
    responsesOf (.encodeUInt53LE 0x4340000000000000#64) = some [.fault .rangeViolation] := by decide
/-- H5: 258. -/
theorem test_encodeUInt16BE_bytes :
    responsesOf (.encodeUInt16BE 0x4070200000000000#64) = some [.bytes [0x01#8, 0x02#8]] := by decide
/-- H11: 65535.5 is above the maximum before it is fractional. -/
theorem test_encodeUInt16BE_range_first :
    responsesOf (.encodeUInt16BE 0x40EFFFF000000000#64) = some [.fault .rangeViolation] := by decide
/-- W7: 2^53 - 1 at offset 3. -/
theorem test_writeUInt64LE_unaligned :
    bytesOf (.writeUInt64LE 0x433FFFFFFFFFFFFF#64 3 12) =
      some ([0x5A#8, 0x5A#8, 0x5A#8, 0xFF#8, 0xFF#8, 0xFF#8, 0xFF#8, 0xFF#8, 0xFF#8, 0x1F#8, 0x00#8, 0x5A#8].map
        some) := by decide
/-- W5 and W3: 2^32 - 1 does not wrap, and BUF is unchanged. -/
theorem test_writeUInt64LE_no_wrap :
    responsesOf (.writeUInt64LE 0x3FF0000000000000#64 4294967295 12) = some [.fault .outOfBounds] ∧
    bytesOf (.writeUInt64LE 0x3FF0000000000000#64 5 12) = some (List.replicate 12 (some 0x5A#8)) := by decide

/-! ### Witnesses: the hypotheses of the statements can be met -/

/-- 1, and the smallest and the largest accepted integers, as value words (X1, K1, K14). -/
theorem val_one : val 0x3FF0000000000000#64 = .fin ((1 : Nat) : Rat) := by decide
theorem val_zero : val 0x0000000000000000#64 = .fin ((0 : Nat) : Rat) := by decide
theorem val_max : val 0x433FFFFFFFFFFFFF#64 = .fin ((9007199254740991 : Nat) : Rat) := by decide
/-- 65535 and 65536 (H9, H10). -/
theorem val_u16Max : val 0x40EFFFE000000000#64 = .fin ((65535 : Nat) : Rat) := by decide
theorem val_u16Next : val 0x40F0000000000000#64 = .fin ((65536 : Nat) : Rat) := by decide
/-- 2^53 (K6) and 1.5 (K9). -/
theorem val_next : val 0x4340000000000000#64 = .fin ((9007199254740992 : Nat) : Rat) := by decide
theorem val_fraction : val 0x3FF8000000000000#64 = .fin (mkRat 3 2) := by decide

theorem next_not_inRange : ¬inRange 9007199254740991 (val 0x4340000000000000#64) := by
  rw [val_next]
  rintro ⟨_, h⟩
  norm_num at h
theorem u16Next_not_inRange : ¬inRange 65535 (val 0x40F0000000000000#64) := by
  rw [val_u16Next]
  rintro ⟨_, h⟩
  norm_num at h
theorem fraction_not_integral : ¬integral (val 0x3FF8000000000000#64) := by
  rw [val_fraction, integral_fin_iff]
  decide
theorem fraction_inRange : inRange 65535 (val 0x3FF8000000000000#64) := by
  rw [val_fraction]
  exact ⟨by decide, by decide⟩
theorem fraction_inRange53 : inRange 9007199254740991 (val 0x3FF8000000000000#64) := by
  rw [val_fraction]
  exact ⟨by decide, by decide⟩

/-- The write of 1 at the last accepted offset of `start` (W2). -/
def write1 : Instr := .writeUInt64LE 0x3FF0000000000000#64 4 12
/-- Another machine with the same buffer, and a past. -/
def later : State := { start with queue := [[.reset]], record := [.fault .outOfBounds], responses := [.done] }
/-- `start` with one command to come. -/
def issuing (w : CmdWord) : State := { start with queue := [[.command w (some 0)]] }

theorem witness_ValidResponsePortsPerResponse : (List.replicate 8 0#8).length ≤ 8 := by decide
theorem witness_ResponseIsAFunctionOfTheCommandAlone :
    operandsOf (.uintHighLow 0#64) = operandsOf (.uintHighLow 0x8000000000000000#64) ∧
    honest write1 start = true ∧ honest write1 later = true ∧ start ≠ later ∧
    start.memPort = some 0 ∧ later.memPort = some 0 ∧ start.buffer 0 = later.buffer 0 ∧
    ((after (exec write1 start)).map fun t => ((t.buffer 0).readByte 4, (t.buffer 0).readByte 11)) =
      some (some 0x01#8, some 0x00#8) ∧ (start.buffer 0).readByte 4 = some 0x5A#8 := by decide
theorem witness_StepKeepsEveryCapacity : ∃ t, step (issuing (encode write1)) = .next t := ⟨_, rfl⟩
theorem witness_OffsetNearTheTopNeverAliases :
    (Instr.writeUInt64LE 0x3FF0000000000000#64 (2 ^ 32 - 8) 12).wellFormed = true ∧ 12 ≤ start.attached.capacity ∧
    1 ≤ 9007199254740991 ∧ val 0x3FF0000000000000#64 = .fin ((1 : Nat) : Rat) ∧ 2 ^ 32 - 8 ≤ 2 ^ 32 - 8 := by decide
theorem witness_MemWriteStoresTheBytesAndNoOther :
    4 + (bytes53 1).length ≤ buf12.capacity ∧ 3 < 4 ∧ 0 + (bytes53 1).length ≤ 8 := by decide
theorem witness_DecodeOfEncodeGivesTheInstruction :
    (Instr.writeUInt64LE 0#64 (2 ^ 32 - 1) (2 ^ 32 - 1)).wellFormed = true ∧ (Instr.uintHighLow 1#64).wellFormed = true :=
  by decide
theorem witness_EncodeOfDecodeGivesTheListingWord :
    opField (encode write1) = 0b11#2 ∧ opField (encode (.encodeUInt16BE 0#64)) ≠ 0b11#2 := by decide
theorem witness_EveryCommandWordDecodesByItsFields :
    opField (encode (.uintHighLow 0#64)) = 0b00#2 ∧ opField (encode (.encodeUInt53LE 0#64)) = 0b01#2 ∧
    opField (encode (.encodeUInt16BE 0#64)) = 0b10#2 ∧ opField (encode write1) = 0b11#2 := by decide
theorem witness_PatternsWiderThanThePortsAreRejected : 2 ^ 130 - 1 < 2 ^ 130 ∧ 2 ^ 130 ≤ 2 ^ 130 := by decide
theorem witness_UnreadFieldsHaveNoEffect :
    opField (packCmd 0b10#2 7#64 1#32 2#32) ≠ 0b11#2 ∧
    opField (packCmd 0b10#2 7#64 3#32 4#32) = opField (packCmd 0b10#2 7#64 1#32 2#32) ∧
    valueField (packCmd 0b10#2 7#64 3#32 4#32) = valueField (packCmd 0b10#2 7#64 1#32 2#32) ∧
    packCmd 0b10#2 7#64 3#32 4#32 ≠ packCmd 0b10#2 7#64 1#32 2#32 := by decide
/-- One word for each clause, as (sign, exponent, fraction): NaN, the infinities, the largest subnormal, the smallest
and the largest normal number. -/
theorem witness_ValueWordDenotesItsBinary64Number :
    0x7FF0000000000001 = 0 * 2 ^ 63 + 2047 * 2 ^ 52 + 1 ∧ 0x7FF0000000000000 = 0 * 2 ^ 63 + 2047 * 2 ^ 52 + 0 ∧
    0xFFF0000000000000 = 1 * 2 ^ 63 + 2047 * 2 ^ 52 + 0 ∧ 0x000FFFFFFFFFFFFF = 0 * 2 ^ 63 + 0 * 2 ^ 52 + (2 ^ 52 - 1) ∧
    0x0010000000000000 = 0 * 2 ^ 63 + 1 * 2 ^ 52 + 0 ∧ 0xFFEFFFFFFFFFFFFF = 1 * 2 ^ 63 + 2046 * 2 ^ 52 + (2 ^ 52 - 1) :=
  by decide
/-- One word for each row of R48, at the edges of the rows: the fields (sign, exponent, fraction) and the verdict. -/
theorem witness_VerdictFollowsFromTheBits :
    classifyFields 1#1 0 0 = .ok 0 ∧ classifyFields 0#1 2047 0 = .error .rangeViolation ∧
    classifyFields 1#1 0 1 = .error .rangeViolation ∧ classifyFields 1#1 2046 0 = .error .rangeViolation ∧
    classifyFields 0#1 1076 0 = .error .rangeViolation ∧ classifyFields 0#1 2046 0 = .error .rangeViolation ∧
    classifyFields 0#1 0 1 = .error .nonIntegerViolation ∧ classifyFields 0#1 1 0 = .error .nonIntegerViolation ∧
    classifyFields 0#1 1022 0 = .error .nonIntegerViolation ∧ classifyFields 0#1 1023 1 = .error .nonIntegerViolation ∧
    classifyFields 0#1 1074 1 = .error .nonIntegerViolation ∧ classifyFields 0#1 1023 0 = .ok 1 ∧
    classifyFields 0#1 1075 (2 ^ 52 - 1) = .ok 9007199254740991 := by decide
theorem witness_EveryIntegerHasItsValueWord :
    0 ≤ 9007199254740991 ∧ 9007199254740991 ≤ 9007199254740991 ∧ val 0x8000000000000000#64 = .fin ((0 : Nat) : Rat) := by
  decide
/-- One response for each operation, and a word that shows it. -/
theorem witness_ResponseWordDeterminesTheResponse :
    (Response.pair 0x001FFFFF#32 1#32).wf = true ∧ (Response.bytes (bytes53 1)).wf = true ∧
    (Response.bytes [1#8, 2#8]).wf = true ∧ Response.done.wf = true ∧ (Response.fault .outOfBounds).wf = true ∧
    (Response.bytes [1#8, 2#8]).ports.shownBy (0b00#2 ++ 5#32 ++ 6#32 ++ 2#4 ++ 0xFFFFFFFFFFFF0201#64 : BitVec 134) = true :=
  by decide
theorem witness_Validate53ChecksRangeThenIntegrality :
    mkRat (-1) 2 < 0 ∧ (9007199254740991 : Rat) < mkRat 18014398509481983 2 ∧
    0 ≤ mkRat 3 2 ∧ mkRat 3 2 ≤ 9007199254740991 ∧ (∀ z : Int, mkRat 3 2 ≠ (z : Rat)) := by
  refine ⟨by decide, by decide, by decide, by decide, fun z hz => ?_⟩
  exact fraction_not_integral (by rw [val_fraction]; exact ⟨z, hz⟩)
theorem witness_SplitIsTheOnlyPairOfLimbs :
    9007199254740991 ≤ 9007199254740991 ∧
    (0x001FFFFF#32).toNat * 4294967296 + (0xFFFFFFFF#32).toNat = 9007199254740991 := by decide
theorem witness_UintHighLowAnswersThePair :
    val 0x433FFFFFFFFFFFFF#64 = .fin ((9007199254740991 : Nat) : Rat) ∧
    ¬inRange 9007199254740991 (val 0x4340000000000000#64) ∧
    inRange 9007199254740991 (val 0x3FF8000000000000#64) ∧ ¬integral (val 0x3FF8000000000000#64) :=
  ⟨val_max, next_not_inRange, fraction_inRange53, fraction_not_integral⟩
theorem witness_SourceAlgorithmGivesTheSplit :
    9007199254740991 ≤ 9007199254740991 ∧ 2147483648 ≤ 2147483648 % 4294967296 ∧
    2147483647 % 4294967296 < 2147483648 := by decide
theorem witness_UintHighLowProperties :
    uintHighLow (.fin ((4294967295 : Nat) : Rat)) start = .next (start.deliver (.pair 0#32 0xFFFFFFFF#32)) ∧
    uintHighLow (.fin ((4294967296 : Nat) : Rat)) start = .next (start.deliver (.pair 1#32 0#32)) := ⟨rfl, rfl⟩
theorem witness_EncodeUInt53LEAnswersEightBytes :
    val 0x0000000000000000#64 = .fin ((0 : Nat) : Rat) ∧ val 0x433FFFFFFFFFFFFF#64 = .fin ((9007199254740991 : Nat) : Rat) ∧
    ¬inRange 9007199254740991 (val 0x4340000000000000#64) ∧
    inRange 9007199254740991 (val 0x3FF8000000000000#64) ∧ ¬integral (val 0x3FF8000000000000#64) :=
  ⟨val_zero, val_max, next_not_inRange, fraction_inRange53, fraction_not_integral⟩
theorem witness_EncodeUInt53LEProperties :
    encodeUInt53LE (.fin ((1 : Nat) : Rat)) start = .next (start.deliver (.bytes [1, 0, 0, 0, 0, 0, 0, 0])) ∧
    uintHighLow (.fin ((1 : Nat) : Rat)) start = .next (start.deliver (.pair 0#32 1#32)) ∧
    encodeUInt53LE .nan start = .next (start.deliver (.fault .rangeViolation)) := ⟨rfl, rfl, rfl⟩
theorem witness_Validate16ChecksRangeThenIntegrality :
    mkRat (-1) 2 < 0 ∧ (65535 : Rat) < mkRat 131071 2 ∧ 0 ≤ mkRat 3 2 ∧ mkRat 3 2 ≤ 65535 ∧
    (∀ z : Int, mkRat 3 2 ≠ (z : Rat)) ∧ 65535 ≤ 65535 := by
  refine ⟨by decide, by decide, by decide, by decide, fun z hz => ?_, le_refl _⟩
  exact fraction_not_integral (by rw [val_fraction]; exact ⟨z, hz⟩)
theorem witness_EncodeUInt16BEAnswersTwoBytes :
    val 0x40EFFFE000000000#64 = .fin ((65535 : Nat) : Rat) ∧ ¬inRange 65535 (val 0x40F0000000000000#64) ∧
    inRange 65535 (val 0x3FF8000000000000#64) ∧ ¬integral (val 0x3FF8000000000000#64) :=
  ⟨val_u16Max, u16Next_not_inRange, fraction_inRange, fraction_not_integral⟩
theorem witness_EncodeUInt16BEProperties :
    encodeUInt16BE (.fin ((65535 : Nat) : Rat)) start = .next (start.deliver (.bytes [0xFF, 0xFF])) ∧ 65535 ≤ 65535 :=
  ⟨rfl, le_refl _⟩
theorem witness_ValueOperationsChangeNothingButTheResponse :
    ∀ value offset bufLen, Instr.encodeUInt16BE 0#64 ≠ .writeUInt64LE value offset bufLen := by intros; simp
/-- The last accepted offset, and one past it; a value out of range, and a fraction. -/
theorem witness_WriteUInt64LEStoresBothWords :
    12 ≤ start.attached.capacity ∧ val 0x433FFFFFFFFFFFFF#64 = .fin ((9007199254740991 : Nat) : Rat) ∧ 4 + 8 ≤ 12 ∧
    ¬inRange 9007199254740991 (val 0x4340000000000000#64) ∧
    inRange 9007199254740991 (val 0x3FF8000000000000#64) ∧ ¬integral (val 0x3FF8000000000000#64) ∧
    inRange 9007199254740991 (val 0x433FFFFFFFFFFFFF#64) ∧ integral (val 0x433FFFFFFFFFFFFF#64) ∧ 12 < 5 + 8 :=
  ⟨by decide, val_max, by decide, next_not_inRange, fraction_inRange53, fraction_not_integral,
    val_max ▸ inRange_natCast (le_refl _), val_max ▸ integral_natCast _, by decide⟩
theorem witness_WriteFrameAndRoundTrip :
    ∃ t t', exec write1 start = .next t ∧ t.record = start.record ++ [.done] ∧ later.memPort = some 0 ∧
      exec write1 later = .next t' := ⟨_, _, rfl, by decide, rfl, rfl⟩
theorem witness_FaultingCommandHasNoOtherEffect :
    ∃ t, exec (.writeUInt64LE 0x3FF0000000000000#64 5 12) start = .next t ∧
      t.record = start.record ++ [.fault .outOfBounds] := ⟨_, rfl, by decide⟩
theorem witness_WrittenWindowIsTheEncodedBytes :
    12 ≤ start.attached.capacity ∧ 4 + 8 ≤ 12 ∧
    encodeUInt53LE (.fin ((1 : Nat) : Rat)) start = .next (start.deliver (.bytes [1, 0, 0, 0, 0, 0, 0, 0])) :=
  ⟨by decide, by decide, rfl⟩
/-- Two overlapping writes, at 0 and at 4 (P4). -/
theorem witness_RepeatedAndOverlappingWrites :
    ∃ t u u' w, start.Inv ∧ writeUInt64LE (.fin ((1 : Nat) : Rat)) 0 12 start = .next t ∧
      t.record = start.record ++ [.done] ∧
      writeUInt64LE (.fin ((1 : Nat) : Rat)) 0 12 t = .next w ∧
      writeUInt64LE (.fin ((2 : Nat) : Rat)) 4 12 t = .next u ∧ u.record = t.record ++ [.done] ∧
      writeUInt64LE (.fin ((2 : Nat) : Rat)) 4 12 start = .next u' :=
  ⟨_, _, _, _, by decide, rfl, by decide, rfl, rfl, by decide, rfl⟩
theorem witness_PartialWriteUnderOobPartial : start.memPort = some 0 ∧ 8 + 4 ≤ 12 ∧ 12 < 8 + 8 := by decide
theorem witness_FirstConditionThatAppliesIsReported : 8 ≤ start.attached.capacity ∧ 8 < 100 + 8 ∧ 0 + 8 ≤ 8 := by decide
theorem witness_CommandAfterAFaultIsUnaffected :
    ∃ t, exec (.writeUInt64LE 0x3FF0000000000000#64 5 12) start = .next t ∧
      t.record = start.record ++ [.fault .outOfBounds] ∧ honest write1 start = true := ⟨_, rfl, by decide, by decide⟩
/-- Two windows of one buffer of 16 bytes, side by side. -/
theorem witness_StepsThatDoNotOverlapCommute :
    ∃ s t, s.Inv ∧
      overlapping [.command (encode (.writeUInt64LE 0x3FF0000000000000#64 0 16)) (some 0),
        .command (encode (.writeUInt64LE 0x3FF0000000000000#64 8 16)) (some 0)] = false ∧
      performAll [.command (encode (.writeUInt64LE 0x3FF0000000000000#64 0 16)) (some 0),
        .command (encode (.writeUInt64LE 0x3FF0000000000000#64 8 16)) (some 0)] s = .next t :=
  ⟨{ start with buffers := [(0, ⟨16, []⟩)] }, _, by decide, by decide, rfl⟩
theorem witness_RecordKeepsEveryFault :
    ∃ t, step { issuing (encode write1) with record := [.fault .outOfBounds] } = .next t ∧
      ({ issuing (encode write1) with record := [.fault .outOfBounds] } : State).clean = false ∧
      Response.fault .outOfBounds ∈ t.record := ⟨_, rfl, by decide, by decide⟩
theorem witness_StepKeepsTheInvariant :
    ∃ t, (issuing (encode write1)).Inv ∧ step (issuing (encode write1)) = .next t := ⟨_, by decide, rfl⟩
theorem witness_ResetTouchesNoBuffer : later.queue = [.reset] :: [] := rfl
/-- Windows that meet in one byte, and the host at the last and at the first byte of a window. -/
theorem witness_touchesWindow :
    touchesWindow (.command (encode write1) (some 0)) (.command (encode (.writeUInt64LE 0#64 11 20)) (some 0)) ∧
    touchesWindow (.command (encode write1) (some 0)) (.hostWrite 0 11 0x00#8) ∧
    touchesWindow (.command (encode write1) (some 0)) (.hostRead 0 4) :=
  have hd : decode (encode write1) = .writeUInt64LE 0x3FF0000000000000#64 4 12 := by decide
  ⟨⟨_, 0, _, _, _, rfl, hd, .inl ⟨_, 0#64, 11, 20, rfl, by decide, by decide, by decide⟩⟩,
    ⟨_, 0, _, _, _, rfl, hd, .inr (.inl ⟨11, _, rfl, by decide, by decide⟩)⟩,
    ⟨_, 0, _, _, _, rfl, hd, .inr (.inr ⟨4, rfl, by decide, by decide⟩)⟩⟩
/-- An entry with the two in the other order and a third between them, without a reset and with one, and a reset beside
a command that touches no buffer. -/
theorem witness_OverlapAtOneTimeIsRefused :
    let a : Access := .hostRead 0 4
    let b : Access := .command (encode write1) (some 0)
    let other : Access := .hostRead 0 0
    touchesWindow b a ∧ .reset ∉ [a, other, b] ∧ .reset ∈ [.reset, a, b] ∧
    step { start with queue := [[a, other, b]] } = .refused .overlappingAccess ∧
    step { start with queue := [[.reset, a, b]] } = .refused .resetDuringStep ∧
    step { start with queue := [[.command (encode (.uintHighLow 0#64)) none, .reset]] } = .refused .resetDuringStep :=
  ⟨witness_touchesWindow.2.2, by decide, by decide, rfl, rfl, rfl⟩
theorem witness_CommandThatMeetsTheConditionsCannotFault :
    honest write1 start = true ∧ conditionsMet write1 := by
  refine ⟨by decide, ?_, ?_, by decide⟩
  · rw [val_one]
    exact inRange_natCast (by decide)
  · rw [val_one]
    exact integral_natCast 1
theorem witness_FalseCapacityIsRefused : start.attached.capacity < 13 := by decide
theorem witness_EveryCommandEndsWithOneResponse :
    honest write1 start = true ∧ honest (.uintHighLow 0#64) State.reset = true := by decide
theorem witness_StepRunsTheDecodedCommand : (issuing 0#130).queue = [.command 0#130 (some 0)] :: [] := rfl
theorem witness_PresentedWordRunsNext :
    0x300000000000000000000000000000000 < 2 ^ 136 ∧ 0x300000000000000000000000000000000 < 2 ^ 130 := by decide
theorem witness_BetweenCommandsOnlyTheHostActs :
    ({ start with queue := [[.hostWrite 0 11 1#8]] } : State).queue = [.hostWrite 0 11 1#8] :: [] ∧
    ({ start with queue := [[.hostRead 0 12]] } : State).queue = [.hostRead 0 12] :: [] ∧
    11 < (start.buffer 0).capacity ∧ (start.buffer 0).capacity ≤ 12 ∧ start.queue = [] := by decide
theorem witness_DutifulHostRunsToItsEnd : (issuing (encode write1)).dutiful := by
  intro beat hb
  simp only [issuing, List.mem_singleton] at hb
  exact ⟨_, _, hb, by decide⟩
/-- P1. -/
def programP1 : Program where
  buffers := [(0, ⟨16, (List.range 16).map fun a => (a, 0xAA#8)⟩)]
  lines   := [.writeUInt64LE 0x3FF0000000000000#64 0 none, .writeUInt64LE 0x41F0000000000000#64 0 (some 8)]
theorem witness_EveryLoadedListOfLinesEnds :
    (∀ c ∈ programP1.buffers, c.2.capacity < 2 ^ 32) ∧
    (∀ value n offset, Line.writeUInt64LE value n (some offset) ∈ programP1.lines → offset < 2 ^ 32) := by
  refine ⟨by decide, fun value n offset h => ?_⟩
  simp [programP1] at h
  omega
/-- P1's first word as its listing writes it. -/
theorem test_load_P1 :
    programP1.load.queue.head? = some [.command 0x33FF00000000000000000000000000010#130 (some 0)] := by decide

end Sys2Proof.Tests
end

section
/-! The serialisers and the decoders of R11 against their formulas: a field is a quotient, so a byte is one too. -/
namespace Sys2Proof.Proofs
open Sys2Proof Sys2Proof.Machine

theorem extractLsb'_eq_ofNat_div {n : Nat} (x : BitVec n) (start len : Nat) :
    x.extractLsb' start len = BitVec.ofNat len (x.toNat / 2 ^ start) := by
  rw [BitVec.extractLsb', Nat.shiftRight_eq_div_pow]

theorem le32_eq_quotients (w : Word) : le32 w =
    [BitVec.ofNat 8 w.toNat, BitVec.ofNat 8 (w.toNat / 2 ^ 8), BitVec.ofNat 8 (w.toNat / 2 ^ 16),
      BitVec.ofNat 8 (w.toNat / 2 ^ 24)] := by
  simp only [le32, extractLsb'_eq_ofNat_div, pow_zero, Nat.div_one]

theorem be16_eq_quotients (h : BitVec 16) :
    be16 h = [BitVec.ofNat 8 (h.toNat / 2 ^ 8), BitVec.ofNat 8 h.toNat] := by
  simp only [be16, extractLsb'_eq_ofNat_div, pow_zero, Nat.div_one]

/-- The recursion of `decLe64` is Horner's scheme for the sum of R11. -/
theorem decLe64_eight_bytes (b0 b1 b2 b3 b4 b5 b6 b7 : Byte) : decLe64 [b0, b1, b2, b3, b4, b5, b6, b7] =
    b0.toNat + b1.toNat * 2 ^ 8 + b2.toNat * 2 ^ 16 + b3.toNat * 2 ^ 24 + b4.toNat * 2 ^ 32 + b5.toNat * 2 ^ 40 +
      b6.toNat * 2 ^ 48 + b7.toNat * 2 ^ 56 := by
  simp only [decLe64]
  ring

/-- Settles O1: the serialisers by quotients, `decLe64` by Horner's scheme, `decBe16` as it is defined. -/
theorem serialisersAndDecodersFollowTheirFormulas : Obligations.SerialisersAndDecodersFollowTheirFormulas :=
  ⟨le32_eq_quotients, be16_eq_quotients, decLe64_eight_bytes, fun _ _ => rfl⟩

end Sys2Proof.Proofs
end

section
/-! R27: the response of a command and what it stores, as a function of the operands; and the frame of a command. -/
namespace Sys2Proof.Proofs
open Sys2Proof Sys2Proof.Machine

/-- What a command with the operands `op`, `val(value)`, `offset` and `buf_len` does: its response, and where it
stores, the offset and the integer. The state is no argument, so this is R27 as a function. -/
def effectOf : BitVec 2 × Num × Nat × Nat → Response × Option (Nat × Nat)
  | (op, v, offset, bufLen) =>
    if op = 0b00#2 then (verdict (fun n => .pair (split53 n).1 (split53 n).2) (validate53 v), none)
    else if op = 0b01#2 then (verdict (fun n => .bytes (bytes53 n)) (validate53 v), none)
    else if op = 0b10#2 then (verdict (fun n => .bytes (be16 (BitVec.ofNat 16 n))) (validate16 v), none)
    else
      match validate53 v with
      | .error e => (.fault e, none)
      | .ok n => if bufLen < offset + 8 then (.fault .outOfBounds, none) else (.done, some (offset, n))

/-- A buffer after a store, if there is one. -/
def storeIn (b : Buffer) : Option (Nat × Nat) → Buffer
  | none => b
  | some (offset, n) => writeWindow b offset n

/-- The state after a store to the memory attached, if there is one. -/
def afterStore (s : State) : Option (Nat × Nat) → State
  | none => s
  | some (offset, n) => s.setAttached (writeWindow s.attached offset n)

section afterStore
variable (s : State) (store : Option (Nat × Nat))

@[simp] theorem afterStore_record : (afterStore s store).record = s.record := by
  cases store with
  | none => rfl
  | some w => exact setAttached_record ..

@[simp] theorem afterStore_responses : (afterStore s store).responses = s.responses := by
  cases store with
  | none => rfl
  | some w => exact setAttached_responses ..

theorem afterStore_buffer {n : BufName} (h : s.memPort = some n) :
    (afterStore s store).buffer n = storeIn (s.buffer n) store := by
  cases store with
  | none => rfl
  | some w => rw [afterStore, setAttached_of_some _ _ h, setBuffer_buffer_self, attached_of_some _ h, storeIn]

end afterStore

/-- A command that keeps the host's duty does what its operands say: the state gives the memory to store in and the
lists the response is put on, and has no other part. -/
theorem exec_eq_effectOf {i : Instr} {s : State} (h : honest i s = true) :
    exec i s = .next ((afterStore s (effectOf (operandsOf i)).2).deliver (effectOf (operandsOf i)).1) := by
  cases i with
  | uintHighLow value => exact uintHighLow_eq _ _
  | encodeUInt53LE value => exact encodeUInt53LE_eq _ _
  | encodeUInt16BE value => exact encodeUInt16BE_eq _ _
  | writeUInt64LE value offset bufLen =>
    have hcap : bufLen ≤ s.attached.capacity := of_decide_eq_true h
    rw [exec, execWriteUInt64LE, writeUInt64LE_eq _ _ _ _ hcap]
    cases hv : validate53 (val value) with
    | error e => simp [effectOf, operandsOf, hv, afterStore]
    | ok n =>
      by_cases ho : bufLen < offset + 8 <;> simp [effectOf, operandsOf, hv, ho, afterStore]

/-- The frame of a store to the memory attached. -/
theorem setAttached_writeWindow_readByte_ne {s : State} {offset v n a : Nat}
    (h : ((s.setAttached (writeWindow s.attached offset v)).buffer n).readByte a ≠ (s.buffer n).readByte a) :
    s.memPort = some n ∧ offset ≤ a ∧ a < offset + 8 := by
  cases hp : s.memPort with
  | none =>
    rw [setAttached_of_none _ _ hp] at h
    exact absurd rfl h
  | some m =>
    rw [setAttached_of_some _ _ hp, setBuffer_buffer, attached_of_some _ hp] at h
    by_cases hn : n = m
    · subst hn
      rw [if_pos rfl, writeWindow_readByte] at h
      exact ⟨rfl, by_contra fun hw => h (if_neg hw)⟩
    · rw [if_neg hn] at h
      exact absurd rfl h

/-- The frame of a command: a byte that differs afterwards lies in the window of a `writeUInt64LE`, in the buffer on the
memory port. -/
theorem exec_readByte_ne {i : Instr} {s t : State} (h : exec i s = .next t) {n a : Nat}
    (hne : (t.buffer n).readByte a ≠ (s.buffer n).readByte a) :
    ∃ value offset bufLen, i = .writeUInt64LE value offset bufLen ∧ s.memPort = some n ∧
      offset ≤ a ∧ a < offset + 8 := by
  rcases exec_next h with ⟨r, -, rfl⟩ | ⟨value, offset, bufLen, v, hi, -, -, -, rfl⟩
  · exact absurd rfl hne
  · exact ⟨value, offset, bufLen, hi, setAttached_writeWindow_readByte_ne hne⟩

/-- Settles O3: both commands do what the operands they share say, by `exec_eq_effectOf`. -/
theorem responseIsAFunctionOfTheCommandAlone : Obligations.ResponseIsAFunctionOfTheCommandAlone := by
  intro i i' s s' hops hs hs'
  have ht := exec_eq_effectOf hs
  have ht' := exec_eq_effectOf hs'
  rw [← hops] at ht'
  refine ⟨(effectOf (operandsOf i)).1, _, _, ht, ht', by simp, by simp, by simp, by simp,
    fun n n' hn hn' hb => ?_, fun n a => exec_readByte_ne ht⟩
  rw [deliver_buffer, deliver_buffer, afterStore_buffer _ _ hn, afterStore_buffer _ _ hn', hb]

end Sys2Proof.Proofs
end

section
/-! R21: the response ports. R26, R93: the machine right after reset. -/
namespace Sys2Proof.Proofs
open Sys2Proof Sys2Proof.Machine

/-- Settles O2: each port by the table of R21, and taking an entry of the queue clears them. -/
theorem validResponsePortsPerResponse : Obligations.ValidResponsePortsPerResponse :=
  ⟨fun _ _ => rfl, fun _ _ => rfl, rfl, rfl, rfl, rfl, takeBeat_responses⟩

/-- Reset has no buffer and no response, so the invariant asks nothing of it. -/
theorem reset_inv : State.reset.Inv :=
  ⟨.nil, List.forall_mem_nil _, List.forall_mem_nil _, List.forall_mem_nil _⟩

/-- Settles O42: by `reset_inv`, and reset's response lists are empty. -/
theorem resetMeetsTheInvariant : Obligations.ResetMeetsTheInvariant :=
  ⟨reset_inv, rfl, rfl, rfl⟩

end Sys2Proof.Proofs
end

section
/-! The machine's invariant `State.Inv` along a step: taking an entry of the queue, each access, and so the step. -/
namespace Sys2Proof.Proofs
open Sys2Proof Sys2Proof.Machine

theorem buffers_wf_of_inv {s : State} (h : s.Inv) : ∀ b ∈ s.buffers, Buffer.wf b.2 := h.2.1

theorem withPort_inv {s : State} (h : s.Inv) (p : Option BufName) : (s.withPort p).Inv := h

theorem takeBeat_inv {s : State} (h : s.Inv) (rest : List (List Access)) : (s.takeBeat rest).Inv := by
  obtain ⟨hkeys, hbufs, -, hrec⟩ := h
  exact ⟨hkeys, hbufs, List.forall_mem_nil _, hrec⟩

theorem reset_access_inv {s : State} (h : s.Inv) : State.Inv { s with block := (), responses := [] } :=
  takeBeat_inv h s.queue

/-- A command delivers a response of a shape R14 and R59 allow, and stores only inside the buffer attached. -/
theorem exec_inv {i : Instr} {s t : State} (hs : s.Inv) (h : exec i s = .next t) : t.Inv := by
  rcases exec_next h with ⟨r, hr, rfl⟩ | ⟨value, offset, bufLen, n, -, -, hwindow, hduty, rfl⟩
  · exact deliver_inv hs hr
  · have hstored : (writeWindow s.attached offset n).wf :=
      Buffer.wf_writeWindow (attached_wf (buffers_wf_of_inv hs)) n (hwindow.trans hduty)
    exact deliver_inv (setAttached_inv hs hstored) rfl

theorem perform_inv {a : Access} {s t : State} (hs : s.Inv) (h : perform a s = .next t) : t.Inv := by
  rcases perform_next h with ⟨word, buf, -, hx⟩ | ⟨n, addr, byte, -, haddr, rfl⟩ | ⟨n, addr, -, -, rfl⟩ | ⟨-, rfl⟩
  · exact exec_inv (withPort_inv hs buf) hx
  · exact setBuffer_inv hs n (Buffer.wf_writeByte (buffer_wf (buffers_wf_of_inv hs) n) haddr byte)
  · exact hs
  · exact reset_access_inv hs

/-- Settles O43: taking an entry of the queue keeps the invariant, and so does each access of the entry. -/
theorem stepKeepsTheInvariant : Obligations.StepKeepsTheInvariant :=
  fun _ _ hs h => step_keeps (fun _ rest hu => takeBeat_inv hu rest) (fun _ _ _ => perform_inv) hs h

end Sys2Proof.Proofs
end

section
/-! R28 and R73 (1): the capacity of every buffer along a step. -/
namespace Sys2Proof.Proofs
open Sys2Proof Sys2Proof.Machine

/-- Replacing a buffer by one of the same capacity changes no capacity. -/
theorem setBuffer_buffer_capacity {s : State} {n : BufName} {b : Buffer} (hb : b.capacity = (s.buffer n).capacity)
    (m : BufName) : ((s.setBuffer n b).buffer m).capacity = (s.buffer m).capacity := by
  rw [setBuffer_buffer]
  split
  · rename_i hm
    rw [hm, hb]
  · rfl

/-- The same for the buffer on the memory port. -/
theorem setAttached_buffer_capacity {s : State} {b : Buffer} (hb : b.capacity = s.attached.capacity) (m : BufName) :
    ((s.setAttached b).buffer m).capacity = (s.buffer m).capacity := by
  cases hp : s.memPort with
  | none => rw [setAttached_of_none _ _ hp]
  | some n =>
    rw [setAttached_of_some _ _ hp]
    exact setBuffer_buffer_capacity (by rw [hb, attached_of_some _ hp]) m

theorem exec_buffer_capacity {i : Instr} {s t : State} (h : exec i s = .next t) (m : BufName) :
    (t.buffer m).capacity = (s.buffer m).capacity := by
  rcases exec_next h with ⟨r, -, rfl⟩ | ⟨value, offset, bufLen, n, -, -, -, -, rfl⟩
  · rw [deliver_buffer]
  · rw [deliver_buffer]
    exact setAttached_buffer_capacity (writeWindow_capacity ..) m

theorem perform_buffer_capacity {a : Access} {s t : State} (h : perform a s = .next t) (m : BufName) :
    (t.buffer m).capacity = (s.buffer m).capacity := by
  rcases perform_next h with ⟨word, buf, -, hx⟩ | ⟨n, addr, byte, -, -, rfl⟩ | ⟨n, addr, -, -, rfl⟩ | ⟨-, rfl⟩
  · rw [exec_buffer_capacity hx, withPort_buffer]
  · exact setBuffer_buffer_capacity (writeByte_capacity ..) m
  · rfl
  · rfl

/-- Settles O4: "the capacity of `n` is what it was in `s`" is kept by taking an entry of the queue and by each
access. -/
theorem stepKeepsEveryCapacity : Obligations.StepKeepsEveryCapacity := fun s _ h n =>
  step_keeps (P := fun u => (u.buffer n).capacity = (s.buffer n).capacity) (fun _ _ hu => hu)
    (fun _ _ _ hu hp => (perform_buffer_capacity hp n).trans hu) rfl h

end Sys2Proof.Proofs
end

section
/-! R30, R72: the window's bound. R31: what `MemWrite` stores. -/
namespace Sys2Proof.Proofs
open Sys2Proof Sys2Proof.Machine

/-- An accepted operand whose window does not fit is the condition `OutOfBounds` (R72). -/
theorem exec_writeUInt64LE_outOfBounds {value : ValueWord} {offset bufLen n : Nat} {s : State}
    (hduty : bufLen ≤ s.attached.capacity) (hval : validate53 (val value) = .ok n) (hwindow : bufLen < offset + 8) :
    exec (.writeUInt64LE value offset bufLen) s = .next (s.deliver (.fault .outOfBounds)) := by
  rw [exec, execWriteUInt64LE, writeUInt64LE_eq _ _ _ _ hduty, hval]
  exact if_pos hwindow

/-- Settles O5: the window ends at `offset + 8`, a natural number of at least 2^32, and `buf_len` is below 2^32. -/
theorem offsetNearTheTopNeverAliases : Obligations.OffsetNearTheTopNeverAliases := by
  intro value offset bufLen n s hwf hduty hn hval hoffset
  obtain ⟨-, hbufLen⟩ := (wellFormed_writeUInt64LE value offset bufLen).1 hwf
  have haccepted : validate53 (val value) = .ok n := hval ▸ validate_natCast hn
  exact exec_writeUInt64LE_outOfBounds hduty haccepted (by omega)

/-- `MemRead` gives the bytes that stand at its addresses. -/
theorem memRead_eq_some {b : Buffer} {addr : Nat} {bs : List Byte}
    (h : ∀ i < bs.length, b.readByte (addr + i) = bs[i]?) : b.memRead addr bs.length = some bs := by
  induction bs generalizing addr with
  | nil => rfl
  | cons x rest ih =>
    have hfirst : b.readByte addr = some x := h 0 (Nat.succ_pos _)
    have hrest : b.memRead (addr + 1) rest.length = some rest := ih fun i hi => by
      rw [Nat.add_right_comm, Nat.add_assoc, h (i + 1) (Nat.succ_lt_succ hi), List.getElem?_cons_succ]
    rw [List.length_cons, Buffer.memRead, hfirst, hrest]

theorem memWrite_memRead (b : Buffer) (addr : Nat) (bs : List Byte) :
    (b.memWrite addr bs).memRead addr bs.length = some bs :=
  memRead_eq_some fun i hi => by
    rw [memWrite_readByte, if_pos ⟨Nat.le_add_right .., Nat.add_lt_add_left hi _⟩, Nat.add_sub_cancel_left]

theorem memWrite_readByte_outside (b : Buffer) {addr a : Nat} {bs : List Byte} (h : a < addr ∨ addr + bs.length ≤ a) :
    (b.memWrite addr bs).readByte a = b.readByte a := by
  rw [memWrite_readByte, if_neg (by omega)]

/-- Settles O6: both clauses on bytes read `memWrite_readByte`, inside the window and outside it. -/
theorem memWriteStoresTheBytesAndNoOther : Obligations.MemWriteStoresTheBytesAndNoOther := fun b addr bs _ =>
  ⟨memWrite_memRead b addr bs, fun _ => memWrite_readByte_outside b, memWrite_capacity b addr bs⟩

end Sys2Proof.Proofs
end

section
/-! R43 to R46, R49, R50, R55: the decoder by the `op` field, and the encoder against it. -/
namespace Sys2Proof.Proofs
open Sys2Proof Sys2Proof.Machine

section decode
variable {w : CmdWord}

theorem decode_of_op_00 (h : opField w = 0b00#2) : decode w = .uintHighLow (valueField w) := by
  simp [decode, h]

theorem decode_of_op_01 (h : opField w = 0b01#2) : decode w = .encodeUInt53LE (valueField w) := by
  simp [decode, h]

theorem decode_of_op_10 (h : opField w = 0b10#2) : decode w = .encodeUInt16BE (valueField w) := by
  simp [decode, h]

theorem decode_of_op_11 (h : opField w = 0b11#2) :
    decode w = .writeUInt64LE (valueField w) (offsetField w).toNat (bufLenField w).toNat := by
  simp [decode, h]

end decode

/-- Settles O7: the `op` field of `encode i` names the constructor of `i`, and each operand read is a field of its
width. -/
theorem decodeOfEncodeGivesTheInstruction : Obligations.DecodeOfEncodeGivesTheInstruction := by
  intro i hwf
  cases i with
  | uintHighLow value => rw [encode, decode_of_op_00 (opField_packCmd ..), valueField_packCmd]
  | encodeUInt53LE value => rw [encode, decode_of_op_01 (opField_packCmd ..), valueField_packCmd]
  | encodeUInt16BE value => rw [encode, decode_of_op_10 (opField_packCmd ..), valueField_packCmd]
  | writeUInt64LE value offset bufLen =>
    obtain ⟨hoffset, hbufLen⟩ := (wellFormed_writeUInt64LE value offset bufLen).1 hwf
    rw [encode, decode_of_op_11 (opField_packCmd ..), valueField_packCmd, offsetField_packCmd, bufLenField_packCmd,
      BitVec.toNat_ofNat, BitVec.toNat_ofNat, Nat.mod_eq_of_lt hoffset, Nat.mod_eq_of_lt hbufLen]

theorem listingWord_of_op_11 {w : CmdWord} (h : opField w = 0b11#2) : listingWord w = w := if_pos h

theorem listingWord_of_op_ne_11 {w : CmdWord} (h : opField w ≠ 0b11#2) :
    listingWord w = packCmd (opField w) (valueField w) 0#32 0#32 := if_neg h

/-- The encoder gives the listing word of R46. -/
theorem encode_decode (w : CmdWord) : encode (decode w) = listingWord w := by
  rcases opField_cases w with h | h | h | h
  · rw [decode_of_op_00 h, encode, listingWord_of_op_ne_11 (by rw [h]; decide), h]
  · rw [decode_of_op_01 h, encode, listingWord_of_op_ne_11 (by rw [h]; decide), h]
  · rw [decode_of_op_10 h, encode, listingWord_of_op_ne_11 (by rw [h]; decide), h]
  · rw [decode_of_op_11 h, encode, BitVec.ofNat_toNat, BitVec.ofNat_toNat, BitVec.setWidth_eq, BitVec.setWidth_eq, ← h,
      packCmd_fields, listingWord_of_op_11 h]

theorem decode_wellFormed (w : CmdWord) : (decode w).wellFormed = true := by
  rcases opField_cases w with h | h | h | h
  · rw [decode_of_op_00 h, Instr.wellFormed]
  · rw [decode_of_op_01 h, Instr.wellFormed]
  · rw [decode_of_op_10 h, Instr.wellFormed]
  · rw [decode_of_op_11 h, wellFormed_writeUInt64LE]
    exact ⟨(offsetField w).isLt, (bufLenField w).isLt⟩

/-- Settles O8: by `encode_decode`, and the listing word is the word or the sum of the two fields read. -/
theorem encodeOfDecodeGivesTheListingWord : Obligations.EncodeOfDecodeGivesTheListingWord := fun w =>
  ⟨decode_wellFormed w, fun h => by rw [encode_decode, listingWord_of_op_11 h], fun h => by
    rw [encode_decode, listingWord_of_op_ne_11 h, packCmd_toNat, BitVec.toNat_zero, zero_mul, add_zero, add_zero]⟩

/-- Settles O9: the fields are the ones of `packCmd_fields`, and `exec` runs what `decode` answers for each `op`. -/
theorem everyCommandWordDecodesByItsFields : Obligations.EveryCommandWordDecodesByItsFields := by
  intro w
  refine ⟨opField w, valueField w, offsetField w, bufLenField w, ?_, fun h => ?_, fun h => ?_, fun h => ?_,
    fun h => ?_⟩
  · rw [← packCmd_toNat, packCmd_fields]
  · exact ⟨decode_of_op_00 h, by rw [decode_of_op_00 h]; rfl⟩
  · exact ⟨decode_of_op_01 h, by rw [decode_of_op_01 h]; rfl⟩
  · exact ⟨decode_of_op_10 h, by rw [decode_of_op_10 h]; rfl⟩
  · exact ⟨decode_of_op_11 h, by rw [decode_of_op_11 h]; rfl⟩

/-- A value operation delivers a response that the state has no part in, and does nothing else. -/
theorem exec_of_ne_writeUInt64LE {i : Instr} (h : ∀ value offset bufLen, i ≠ .writeUInt64LE value offset bufLen) :
    ∃ r : Response, ∀ s : State, exec i s = .next (s.deliver r) := by
  cases i with
  | uintHighLow value => exact ⟨_, uintHighLow_eq (val value)⟩
  | encodeUInt53LE value => exact ⟨_, encodeUInt53LE_eq (val value)⟩
  | encodeUInt16BE value => exact ⟨_, encodeUInt16BE_eq (val value)⟩
  | writeUInt64LE value offset bufLen => exact absurd rfl (h value offset bufLen)

/-- Only `op` = 11 is the command that uses the memory port. -/
theorem decode_ne_writeUInt64LE {w : CmdWord} (h : opField w ≠ 0b11#2) (value : ValueWord) (offset bufLen : Nat) :
    decode w ≠ .writeUInt64LE value offset bufLen := by
  rcases opField_cases w with hop | hop | hop | hop
  · rw [decode_of_op_00 hop]
    exact nofun
  · rw [decode_of_op_01 hop]
    exact nofun
  · rw [decode_of_op_10 hop]
    exact nofun
  · exact absurd hop h

/-- Where `offset` and `buf_len` are not read, the other two fields decide the instruction. -/
theorem decode_congr_of_op_ne_11 {w w' : CmdWord} (h : opField w ≠ 0b11#2) (hop : opField w' = opField w)
    (hvalue : valueField w' = valueField w) : decode w' = decode w := by
  rcases opField_cases w with h0 | h1 | h2 | h3
  · rw [decode_of_op_00 h0, decode_of_op_00 (hop.trans h0), hvalue]
  · rw [decode_of_op_01 h1, decode_of_op_01 (hop.trans h1), hvalue]
  · rw [decode_of_op_10 h2, decode_of_op_10 (hop.trans h2), hvalue]
  · exact absurd h3 h

/-- Settles O11: both words decode to the same value operation, which runs the same whatever the memory port. -/
theorem unreadFieldsHaveNoEffect : Obligations.UnreadFieldsHaveNoEffect := by
  intro w w' buf buf' s h hop hvalue
  obtain ⟨r, hr⟩ := exec_of_ne_writeUInt64LE (decode_ne_writeUInt64LE h)
  have hlisting : encode (decode w) = packCmd (opField w) (valueField w) 0#32 0#32 :=
    (encode_decode w).trans (listingWord_of_op_ne_11 h)
  refine ⟨⟨r, (s.withPort buf).deliver r, (s.withPort buf').deliver r, hr _, ?_, rfl, rfl, rfl, rfl⟩, ?_, ?_⟩
  · rw [perform, decode_congr_of_op_ne_11 h hop hvalue, hr]
  · rw [hlisting, offsetField_packCmd]
  · rw [hlisting, bufLenField_packCmd]

/-- Settles O10: the two branches of `decodeBits`. -/
theorem patternsWiderThanThePortsAreRejected : Obligations.PatternsWiderThanThePortsAreRejected := fun _ =>
  ⟨fun h => if_pos h, fun h => if_neg (not_lt.2 h)⟩

/-- Settles O16: the expansion of each line, and `encodeUInt53LE` is another command than `writeUInt64LE`, with an
offset written out or omitted. -/
theorem pseudoFormsExpand : Obligations.PseudoFormsExpand := by
  refine fun cap value n => ⟨rfl, rfl, rfl, rfl, rfl, fun value' n' offset => ?_, rfl⟩
  cases offset with
  | none => exact nofun
  | some offset => exact nofun

/-- Settles O17: the decoder run on the five words. -/
theorem listedWordsDecodeAsListed : Obligations.ListedWordsDecodeAsListed := by
  unfold Obligations.ListedWordsDecodeAsListed
  decide

end Sys2Proof.Proofs
end

section
/-! R47 and R48: what a value word denotes, and the verdict of Validate53 read off its bits. -/
namespace Sys2Proof.Proofs
open Sys2Proof Sys2Proof.Machine

/-! ### What a word denotes (R47) -/

section val
variable {w : ValueWord}

theorem val_of_nan (he : (expField w).toNat = 2047) (hf : (fracField w).toNat ≠ 0) : val w = .nan := by
  simp [val, he, hf]

theorem val_of_infinite (he : (expField w).toNat = 2047) (hf : (fracField w).toNat = 0) :
    val w = if signField w = 0#1 then .posInf else .negInf := by
  simp [val, he, hf]

/-- A finite word denotes its magnitude with its sign. -/
theorem val_of_finite (he : (expField w).toNat ≠ 2047) :
    val w = .fin ((-1 : Rat) ^ (signField w).toNat * magnitude (expField w).toNat (fracField w).toNat) := by
  rcases signField_cases w with ⟨hs, -⟩ | ⟨hs, -⟩ <;> simp [val, he, hs]

/-- A word with the largest exponent field denotes no number, so it is in no range (decision D16). -/
theorem val_not_inRange (he : (expField w).toNat = 2047) (max : Nat) : ¬inRange max (val w) := by
  by_cases hf : (fracField w).toNat = 0
  · rw [val_of_infinite he hf]
    split <;> exact id
  · rw [val_of_nan he hf]
    exact id

end val

/-- Without the implicit bit: zero and the subnormal numbers. -/
theorem magnitude_of_exp_eq_zero (f : Nat) : magnitude 0 f = scaled f 1 := by
  rw [magnitude, if_pos rfl]
  split
  · rename_i hf
    rw [hf, scaled_eq, Nat.cast_zero, zero_mul]
  · rfl

/-- With the implicit bit: the normal numbers. -/
theorem magnitude_of_exp_ne_zero {e : Nat} (he : e ≠ 0) (f : Nat) : magnitude e f = scaled (2 ^ 52 + f) e := if_neg he

/-- Settles O12: the fields of the word, the cases of `val` on them, and `scaled` as the product it stands for. -/
theorem valueWordDenotesItsBinary64Number : Obligations.ValueWordDenotesItsBinary64Number := by
  refine ⟨by decide, by decide, fun w => ?_⟩
  refine ⟨(signField w).toNat, (expField w).toNat, (fracField w).toNat, (signField w).isLt, (expField w).isLt,
    (fracField w).isLt, valueWord_toNat w, val_of_nan, fun he hf hs => ?_, fun he hf hs => ?_, fun he => ?_,
    fun h1 h2 => ?_⟩
  · rw [val_of_infinite he hf, if_pos (BitVec.eq_of_toNat_eq hs)]
  · rw [val_of_infinite he hf, if_neg fun h => ?_]
    rw [h] at hs
    cases hs
  · rw [val_of_finite (by omega), he, magnitude_of_exp_eq_zero, scaled_eq, mul_assoc]
    rfl
  · rw [val_of_finite (by omega), magnitude_of_exp_ne_zero (by omega), scaled_eq, mul_assoc, Nat.cast_add, Nat.cast_pow]
    rfl

/-! ### The verdict from the bits (R48) -/

theorem scaled_pos {m : Nat} (hm : 0 < m) (k : Nat) : 0 < scaled m k := by
  rw [scaled_eq]
  positivity

theorem magnitude_pos {e f : Nat} (h : ¬(e = 0 ∧ f = 0)) : 0 < magnitude e f := by
  by_cases he : e = 0
  · rw [he, magnitude_of_exp_eq_zero]
    exact scaled_pos (by omega) 1
  · rw [magnitude_of_exp_ne_zero he]
    exact scaled_pos (by omega) e

/-- Up to the exponent 1075 the number is the fraction of two natural numbers. -/
theorem scaled_of_le {k : Nat} (hk : k ≤ 1075) (m : Nat) : scaled m k = (m : Rat) / ((2 ^ (1075 - k) : Nat) : Rat) := by
  rw [scaled_eq, show (k : Int) - 1075 = -((1075 - k : Nat) : Int) by omega, zpow_neg, zpow_natCast, div_eq_mul_inv,
    Nat.cast_pow]
  rfl

/-- From the exponent 1076 on, the implicit bit alone is above 2^53 - 1. -/
theorem lt_scaled_of_lt {k : Nat} (hk : 1075 < k) (f : Nat) : (9007199254740991 : Rat) < scaled (2 ^ 52 + f) k := by
  have h2 : (2 : Rat) ^ (1 : Int) ≤ (2 : Rat) ^ ((k : Int) - 1075) := zpow_le_zpow_right₀ (by norm_num) (by omega)
  have hf : (2 ^ 52 : Rat) ≤ ((2 ^ 52 + f : Nat) : Rat) := by exact_mod_cast Nat.le_add_right (2 ^ 52) f
  rw [scaled_eq]
  calc (9007199254740991 : Rat) < 2 ^ 52 * 2 ^ (1 : Int) := by norm_num
    _ ≤ ((2 ^ 52 + f : Nat) : Rat) * 2 ^ ((k : Int) - 1075) := mul_le_mul hf h2 (by positivity) (by positivity)

/-- Validate53 of a fraction whose numerator is in range: whether the denominator divides the numerator. -/
theorem validate53_div {m d : Nat} (hd : 0 < d) (hm : m ≤ 9007199254740991) :
    validate53 (.fin ((m : Rat) / (d : Rat))) = if m % d = 0 then .ok (m / d) else .error .nonIntegerViolation := by
  split
  · rename_i hmod
    rw [← Nat.cast_div (Nat.dvd_of_mod_eq_zero hmod) (by positivity)]
    exact validate_natCast ((Nat.div_le_self m d).trans hm)
  · rename_i hmod
    have hle : (m : Rat) / d ≤ m := div_le_self (by positivity) (by exact_mod_cast hd)
    exact validate_of_not_integral ⟨by positivity, hle.trans (by exact_mod_cast hm)⟩
      fun h => hmod ((integral_div_iff m d hd).1 h)

theorem validate53_scaled {m k : Nat} (hk : k ≤ 1075) (hm : m ≤ 9007199254740991) :
    validate53 (.fin (scaled m k)) =
      if m % 2 ^ (1075 - k) = 0 then .ok (m / 2 ^ (1075 - k)) else .error .nonIntegerViolation := by
  rw [scaled_of_le hk, validate53_div (Nat.two_pow_pos _) hm]

/-- A number below 1, and no zero, is no integer. -/
theorem validate53_scaled_of_lt {m k : Nat} (hk : k ≤ 1022) (h0 : 0 < m) (hm : m ≤ 9007199254740991) :
    validate53 (.fin (scaled m k)) = .error .nonIntegerViolation := by
  have hlt : m < 2 ^ (1075 - k) :=
    (Nat.lt_succ_of_le hm).trans_le (Nat.pow_le_pow_right Nat.two_pos (show 53 ≤ 1075 - k by omega))
  rw [validate53_scaled (by omega) hm, Nat.mod_eq_of_lt hlt, if_neg h0.ne']

/-- The implicit bit is divisible by every denominator of R48's last rows. -/
theorem implicitBit_add_mod {k : Nat} (hk : k ≤ 52) (f : Nat) : (2 ^ 52 + f) % 2 ^ k = f % 2 ^ k := by
  obtain ⟨c, hc⟩ := pow_dvd_pow 2 hk
  rw [hc, Nat.mul_add_mod]

/-- The rows of R48 with the sign clear: Validate53 of a magnitude. -/
theorem validate53_magnitude {e f : Nat} (hf : f < 2 ^ 52) (h0 : ¬(e = 0 ∧ f = 0)) (he : e ≠ 2047) :
    validate53 (.fin (magnitude e f)) = classifyFields 0#1 e f := by
  rw [classifyFields, if_neg h0, if_neg he, if_neg (by decide)]
  split_ifs with hbig hsmall hfrac
  · rw [magnitude_of_exp_ne_zero (by omega)]
    exact validate_of_not_inRange fun h => absurd h.2 (not_le.2 (lt_scaled_of_lt hbig f))
  · by_cases hz : e = 0
    · rw [hz, magnitude_of_exp_eq_zero, validate53_scaled_of_lt (by omega) (by omega) (by omega)]
    · rw [magnitude_of_exp_ne_zero hz, validate53_scaled_of_lt hsmall (by omega) (by omega)]
  · rw [magnitude_of_exp_ne_zero (by omega), validate53_scaled (by omega) (by omega), implicitBit_add_mod (by omega),
      if_neg hfrac]
  · rw [magnitude_of_exp_ne_zero (by omega), validate53_scaled (by omega) (by omega), implicitBit_add_mod (by omega),
      if_pos (not_not.1 hfrac)]

/-- R48: Validate53 of what a word denotes is the table on the word's bits. -/
theorem validate53_val (w : ValueWord) : validate53 (val w) = classify w := by
  rw [classify]
  by_cases he : (expField w).toNat = 2047
  · rw [classifyFields, if_neg (by omega), if_pos he]
    exact validate_of_not_inRange (val_not_inRange he _)
  by_cases h0 : (expField w).toNat = 0 ∧ (fracField w).toNat = 0
  · rw [val_of_finite he, h0.1, h0.2, classifyFields, if_pos ⟨rfl, rfl⟩, magnitude_of_exp_eq_zero, scaled_eq,
      Nat.cast_zero, zero_mul, mul_zero]
    exact validate_natCast (n := 0) (Nat.zero_le _)
  rcases signField_cases w with ⟨hs, hn⟩ | ⟨hs, hn⟩
  · rw [val_of_finite he, hn, hs, pow_zero, one_mul, validate53_magnitude (fracField w).isLt h0 he]
  · rw [val_of_finite he, hn, hs, pow_one, neg_one_mul, classifyFields, if_neg h0, if_neg he, if_pos rfl]
    exact validate_of_not_inRange fun h => absurd h.1 (not_le.2 (neg_lt_zero.2 (magnitude_pos h0)))

section rows
variable {s : BitVec 1} {e f : Nat}

theorem classifyFields_zero : classifyFields s 0 0 = .ok 0 := if_pos ⟨rfl, rfl⟩

theorem classifyFields_nonFinite : classifyFields s 2047 f = .error .rangeViolation := by
  rw [classifyFields, if_neg (by omega), if_pos rfl]

theorem classifyFields_negative (h0 : ¬(e = 0 ∧ f = 0)) : classifyFields 1#1 e f = .error .rangeViolation := by
  rw [classifyFields, if_neg h0, if_pos rfl, ite_self]

theorem classifyFields_large (he : 1076 ≤ e) : classifyFields s e f = .error .rangeViolation := by
  rw [classifyFields, if_neg (by omega), if_pos he, ite_self, ite_self]

theorem classifyFields_small (h0 : ¬(e = 0 ∧ f = 0)) (he : e ≤ 1022) :
    classifyFields 0#1 e f = .error .nonIntegerViolation := by
  rw [classifyFields, if_neg h0, if_neg (by omega), if_neg (by decide), if_neg (by omega), if_pos he]

theorem classifyFields_fraction (h1 : 1023 ≤ e) (h2 : e ≤ 1075) (hf : f % 2 ^ (1075 - e) ≠ 0) :
    classifyFields 0#1 e f = .error .nonIntegerViolation := by
  rw [classifyFields, if_neg (by omega), if_neg (by omega), if_neg (by decide), if_neg (by omega), if_neg (by omega),
    if_pos hf]

theorem classifyFields_integer (h1 : 1023 ≤ e) (h2 : e ≤ 1075) (hf : f % 2 ^ (1075 - e) = 0) :
    classifyFields 0#1 e f = .ok ((2 ^ 52 + f) / 2 ^ (1075 - e)) := by
  rw [classifyFields, if_neg (by omega), if_neg (by omega), if_neg (by decide), if_neg (by omega), if_neg (by omega),
    if_neg (not_not.2 hf)]

end rows

/-- What the last row of R48 accepts is no zero and at most 2^53 - 1. -/
theorem accepted_bounds {k f : Nat} (hk : k ≤ 52) (hf : f < 2 ^ 52) :
    1 ≤ (2 ^ 52 + f) / 2 ^ k ∧ (2 ^ 52 + f) / 2 ^ k ≤ 9007199254740991 :=
  ⟨Nat.div_pos ((Nat.pow_le_pow_right Nat.two_pos hk).trans (Nat.le_add_right ..)) (Nat.two_pow_pos k),
    (Nat.div_le_self ..).trans (by omega)⟩

/-- Settles O13: the verdict is the table by `validate53_val`, and each clause a row of the table. -/
theorem verdictFollowsFromTheBits : Obligations.VerdictFollowsFromTheBits := by
  intro w
  have sign_eq {b : BitVec 1} (h : (signField w).toNat = b.toNat) : signField w = b := BitVec.eq_of_toNat_eq h
  refine ⟨(signField w).toNat, (expField w).toNat, (fracField w).toNat, (signField w).isLt, (expField w).isLt,
    (fracField w).isLt, valueWord_toNat w, ?_⟩
  simp only [validate53_val, classify]
  refine ⟨fun he hf => ?_, fun he => ?_, fun hs h0 _ => ?_, fun _ he _ => ?_, fun hs he hf => ?_, fun hs h1 he => ?_,
    fun hs h1 h2 hf => ?_, fun hs h1 h2 hf => ⟨?_, ?_⟩, trivial⟩
  · rw [he, hf, classifyFields_zero]
  · rw [he, classifyFields_nonFinite]
  · rw [sign_eq (b := 1#1) hs, classifyFields_negative h0]
  · rw [classifyFields_large he]
  · rw [sign_eq (b := 0#1) hs, classifyFields_small (by omega) (by omega)]
  · rw [sign_eq (b := 0#1) hs, classifyFields_small (by omega) he]
  · rw [sign_eq (b := 0#1) hs, classifyFields_fraction h1 h2 hf]
  · rw [sign_eq (b := 0#1) hs, classifyFields_integer h1 h2 hf]
  · exact accepted_bounds (by omega) (fracField w).isLt

/-! ### The value word of an integer (R48) -/

/-- What the table accepts: a zero word, or an integer whose leading bit is the implicit bit of the word. -/
theorem classifyFields_eq_ok {s : BitVec 1} {e f n : Nat} (h : classifyFields s e f = .ok n) :
    (e = 0 ∧ f = 0 ∧ n = 0) ∨ (s = 0#1 ∧ 1023 ≤ e ∧ e ≤ 1075 ∧ n * 2 ^ (1075 - e) = 2 ^ 52 + f) := by
  rw [classifyFields] at h
  split_ifs at h with hzero hexp hneg hbig hsmall hfrac
  · cases h
    exact .inl ⟨hzero.1, hzero.2, rfl⟩
  · cases h
    have hs : s = 0#1 := (BitVec.eq_zero_or_eq_one s).resolve_right hneg
    refine .inr ⟨hs, by omega, by omega, Nat.div_mul_cancel (Nat.dvd_of_mod_eq_zero ?_)⟩
    rw [implicitBit_add_mod (by omega), not_not.1 hfrac]

/-- A value word is decided by its three fields (R47). -/
theorem valueWord_ext {w w' : ValueWord} (hs : signField w = signField w') (he : expField w = expField w')
    (hf : fracField w = fracField w') : w = w' := by
  apply BitVec.eq_of_toNat_eq
  rw [valueWord_toNat w, valueWord_toNat w', hs, he, hf]

section wordOfNat
variable {n : Nat}

theorem wordOfNat_signField (h : n ≠ 0) : signField (wordOfNat n) = 0#1 := by
  rw [wordOfNat, if_neg h, signField, BitVec.extractLsb'_append_eq_of_le (by decide),
    BitVec.extractLsb'_append_eq_of_le (by decide)]
  rfl

theorem wordOfNat_expField (h : n ≠ 0) : expField (wordOfNat n) = BitVec.ofNat 11 (1023 + n.log2) := by
  rw [wordOfNat, if_neg h, expField, BitVec.extractLsb'_append_eq_of_le (le_refl 52), Nat.sub_self,
    BitVec.extractLsb'_append_eq_right]

theorem wordOfNat_fracField (h : n ≠ 0) : fracField (wordOfNat n) = BitVec.ofNat 52 (n * 2 ^ (52 - n.log2)) := by
  rw [wordOfNat, if_neg h, fracField, BitVec.extractLsb'_append_eq_right]

/-- Shifted to bit 52, the leading bit of an integer is the implicit bit. -/
theorem significand_bounds (h : n ≠ 0) (hn : n ≤ 9007199254740991) :
    n.log2 ≤ 52 ∧ 2 ^ 52 ≤ n * 2 ^ (52 - n.log2) ∧ n * 2 ^ (52 - n.log2) < 2 ^ 53 := by
  have hlog : n.log2 < 53 := (Nat.log2_lt h).2 (by omega)
  obtain ⟨hlo, hhi⟩ := (Nat.log2_eq_iff h).1 rfl
  have hpos := Nat.two_pow_pos (52 - n.log2)
  refine ⟨by omega, ?_, ?_⟩
  · calc 2 ^ 52 = 2 ^ n.log2 * 2 ^ (52 - n.log2) := by rw [← pow_add]; congr 1; omega
      _ ≤ n * 2 ^ (52 - n.log2) := Nat.mul_le_mul_right _ hlo
  · calc n * 2 ^ (52 - n.log2) < 2 ^ (n.log2 + 1) * 2 ^ (52 - n.log2) := Nat.mul_lt_mul_of_pos_right hhi hpos
      _ = 2 ^ 53 := by rw [← pow_add]; congr 1; omega

/-- The value word of an integer denotes it, by the table. -/
theorem classify_wordOfNat (hn : n ≤ 9007199254740991) : classify (wordOfNat n) = .ok n := by
  by_cases h : n = 0
  · subst h
    rfl
  · obtain ⟨hlog, hlo, hhi⟩ := significand_bounds h hn
    obtain ⟨f, hf⟩ := Nat.exists_eq_add_of_le hlo
    have hexp : (BitVec.ofNat 11 (1023 + n.log2)).toNat = 1023 + n.log2 :=
      Nat.mod_eq_of_lt (by omega)
    have hfrac : (BitVec.ofNat 52 (n * 2 ^ (52 - n.log2))).toNat = f := by
      rw [hf, BitVec.toNat_ofNat, Nat.add_mod_left, Nat.mod_eq_of_lt (by omega)]
    have hshift : 1075 - (1023 + n.log2) = 52 - n.log2 := by omega
    have hdvd : f % 2 ^ (52 - n.log2) = 0 := by
      rw [← implicitBit_add_mod (by omega), ← hf, Nat.mul_mod_left]
    rw [classify, wordOfNat_signField h, wordOfNat_expField h, wordOfNat_fracField h, hexp, hfrac,
      classifyFields_integer (by omega) (by omega) (by rw [hshift, hdvd]), hshift, ← hf,
      Nat.mul_div_cancel _ (Nat.two_pow_pos _)]

/-- A word whose significand is the integer shifted to bit 52 has the integer's own exponent. -/
theorem log2_of_significand {e f : Nat} (h1 : 1023 ≤ e) (h2 : e ≤ 1075) (hf : f < 2 ^ 52)
    (hsig : n * 2 ^ (1075 - e) = 2 ^ 52 + f) : n ≠ 0 ∧ n.log2 = e - 1023 := by
  have h0 : n ≠ 0 := by
    rintro rfl
    omega
  have hlo : 2 ^ (e - 1023) * 2 ^ (1075 - e) = 2 ^ 52 := by rw [← pow_add]; congr 1; omega
  have hhi : 2 ^ (e - 1023 + 1) * 2 ^ (1075 - e) = 2 ^ 53 := by rw [← pow_add]; congr 1; omega
  refine ⟨h0, (Nat.log2_eq_iff h0).2 ⟨?_, ?_⟩⟩
  · refine Nat.le_of_mul_le_mul_right ?_ (Nat.two_pow_pos (1075 - e))
    omega
  · refine Nat.lt_of_mul_lt_mul_right (a := 2 ^ (1075 - e)) ?_
    omega

/-- No other word denotes the integer, but the second zero word (decision D17). -/
theorem eq_wordOfNat_of_classify {w : ValueWord} (h : classify w = .ok n) :
    w = wordOfNat n ∨ (n = 0 ∧ w = 0x8000000000000000#64) := by
  rcases classifyFields_eq_ok h with ⟨he, hf, rfl⟩ | ⟨hs, h1, h2, hsig⟩
  · have hexp : expField w = 0#11 := BitVec.eq_of_toNat_eq he
    have hfrac : fracField w = 0#52 := BitVec.eq_of_toNat_eq hf
    rcases signField_cases w with ⟨hs, -⟩ | ⟨hs, -⟩
    · exact .inl (valueWord_ext hs hexp hfrac)
    · exact .inr ⟨rfl, valueWord_ext hs hexp hfrac⟩
  · obtain ⟨h0, hlog⟩ := log2_of_significand h1 h2 (fracField w).isLt hsig
    have hexp : 1023 + n.log2 = (expField w).toNat := by omega
    have hfrac : n * 2 ^ (52 - n.log2) = 2 ^ 52 + (fracField w).toNat := by
      rw [← hsig, ← hexp]
      congr 2
      omega
    refine .inl (valueWord_ext ?_ ?_ ?_)
    · rw [hs, wordOfNat_signField h0]
    · rw [wordOfNat_expField h0, hexp, BitVec.ofNat_toNat, BitVec.setWidth_eq]
    · apply BitVec.eq_of_toNat_eq
      rw [wordOfNat_fracField h0, hfrac, BitVec.toNat_ofNat, Nat.add_mod_left, Nat.mod_eq_of_lt (fracField w).isLt]

/-- A word denotes an integer of the range exactly where the table accepts it with that integer. -/
theorem val_eq_natCast_iff (hn : n ≤ 9007199254740991) (w : ValueWord) :
    val w = .fin (n : Rat) ↔ classify w = .ok n := by
  rw [← validate53_val]
  exact ⟨fun h => h ▸ validate_natCast hn, fun h => (validate_eq_ok h).2⟩

end wordOfNat

/-- Settles O14: by the table of R48, the words it accepts with `n` are `wordOfNat n` and, for 0, negative zero. -/
theorem everyIntegerHasItsValueWord : Obligations.EveryIntegerHasItsValueWord := by
  intro n hn
  have hword : val (wordOfNat n) = .fin (n : Rat) := (val_eq_natCast_iff hn _).2 (classify_wordOfNat hn)
  refine ⟨hword, fun w => ⟨fun h => eq_wordOfNat_of_classify ((val_eq_natCast_iff hn w).1 h), ?_⟩⟩
  rintro (rfl | ⟨rfl, rfl⟩)
  · exact hword
  · exact (val_eq_natCast_iff hn _).2 rfl

end Sys2Proof.Proofs
end

section
/-! R52 and R21: the response word, what is read from one that shows a response, and that there is one. -/
namespace Sys2Proof.Proofs
open Sys2Proof Sys2Proof.Machine

/-! ### Reading a word that shows a response -/

theorem shows_eq_true_iff {n : Nat} (field : BitVec n) (port : Option (BitVec n)) :
    shows field port = true ↔ ∀ x, port = some x → field = x := by
  cases port with
  | none => simp [shows]
  | some x => simp [shows]

/-- A word shows the ports where each field of a valid port is that port's value. -/
theorem shownBy_iff (p : ResponsePorts) (w : ResponseWord) :
    p.shownBy w = true ↔ statusField w = p.status ∧ (∀ x, p.high = some x → highField w = x) ∧
      (∀ x, p.low = some x → lowField w = x) ∧ (∀ x, p.outLen = some x → outLenField w = x) ∧
      (∀ i x, p.outBytes[i]? = some x → outByteField w i = x) := by
  have hout : (∀ i < p.outBytes.length, ∀ x, p.outBytes[i]? = some x → outByteField w i = x) ↔
      ∀ i x, p.outBytes[i]? = some x → outByteField w i = x :=
    ⟨fun h i x hx => h i (List.getElem?_eq_some_iff.1 hx).1 x hx, fun h i _ => h i⟩
  simp only [ResponsePorts.shownBy, Bool.and_eq_true, beq_iff_eq, List.all_eq_true, List.mem_range, shows_eq_true_iff,
    and_assoc, hout]

section read
variable {op : BitVec 2} {w : ResponseWord}

theorem readResponse_fault (e : ErrorCondition) (h : statusField w = e.code) : readResponse op w = .fault e := by
  cases e <;> simp [readResponse, h, ErrorCondition.code]

theorem readResponse_pair (h : statusField w = 0#2) : readResponse 0b00#2 w = .pair (highField w) (lowField w) := by
  simp [readResponse, h]

theorem readResponse_done (h : statusField w = 0#2) : readResponse 0b11#2 w = .done := by
  simp [readResponse, h]

theorem readResponse_bytes (h : statusField w = 0#2) (hop : op = 0b01#2 ∨ op = 0b10#2) :
    readResponse op w = .bytes ((List.range (outLenField w).toNat).map (outByteField w)) := by
  rcases hop with rfl | rfl <;> simp [readResponse, h]

/-- The bytes read are the bytes shown. -/
theorem map_outByteField {b : List Byte} (h : ∀ i x, b[i]? = some x → outByteField w i = x) :
    (List.range b.length).map (outByteField w) = b := by
  refine List.ext_getElem (by rw [List.length_map, List.length_range]) fun i _ hi => ?_
  rw [List.getElem_map, List.getElem_range, h i _ (List.getElem?_eq_getElem hi)]

end read

/-- Of a response of R14, `out_bytes` has room for the bytes (R21). -/
theorem outBytes_length_le {r : Response} (h : r.wf = true) : r.ports.outBytes.length ≤ 8 := by
  cases r with
  | bytes b =>
    have hlen : b.length = 8 ∨ b.length = 2 :=
      ((Bool.or_eq_true ..).mp h).imp of_decide_eq_true of_decide_eq_true
    exact show b.length ≤ 8 by omega
  | pair high low => exact Nat.zero_le 8
  | done => exact Nat.zero_le 8
  | fault e => exact Nat.zero_le 8

theorem readResponse_of_shownBy {op : BitVec 2} {r : Response} {w : ResponseWord} (hwf : r.wf = true)
    (hpair : (∃ h l, r = .pair h l) → op = 0b00#2) (hbytes : (∃ b, r = .bytes b) → op = 0b01#2 ∨ op = 0b10#2)
    (hdone : r = .done → op = 0b11#2) (hw : r.ports.shownBy w = true) : readResponse op w = r := by
  obtain ⟨hstatus, hhigh, hlow, hlen, hout⟩ := (shownBy_iff _ _).1 hw
  cases r with
  | pair h l => rw [hpair ⟨h, l, rfl⟩, readResponse_pair hstatus, hhigh h rfl, hlow l rfl]
  | bytes b =>
    have hb : b.length < 16 := (outBytes_length_le hwf).trans_lt (by decide)
    rw [readResponse_bytes hstatus (hbytes ⟨b, rfl⟩), hlen _ rfl, BitVec.toNat_ofNat, Nat.mod_eq_of_lt hb,
      map_outByteField (b := b) hout]
  | done => rw [hdone rfl, readResponse_done hstatus]
  | fault e => exact readResponse_fault e hstatus

/-! ### A word that shows a response -/

/-- A response word with the ports' values on the valid ports and zero elsewhere (R52). -/
def responseWord (p : ResponsePorts) : ResponseWord :=
  p.status ++ p.high.getD 0#32 ++ p.low.getD 0#32 ++ p.outLen.getD 0#4 ++ BitVec.ofNat 64 (decLe64 p.outBytes)

theorem decLe64_lt (b : List Byte) : decLe64 b < 2 ^ (8 * b.length) := by
  induction b with
  | nil => exact Nat.one_pos
  | cons x rest ih =>
    have hx := x.isLt
    rw [decLe64, List.length_cons, Nat.mul_succ, Nat.pow_add]
    omega

/-- A byte of a sequence is a digit of the number it stands for. -/
theorem ofNat_decLe64_div {b : List Byte} {i : Nat} {x : Byte} (h : b[i]? = some x) :
    BitVec.ofNat 8 (decLe64 b / 2 ^ (8 * i)) = x := by
  induction b generalizing i with
  | nil => cases h
  | cons y rest ih =>
    have hy := y.isLt
    cases i with
    | zero =>
      obtain rfl : y = x := by simpa using h
      apply BitVec.eq_of_toNat_eq
      rw [decLe64, BitVec.toNat_ofNat]
      omega
    | succ i =>
      rw [← ih (i := i) (by simpa using h), decLe64, Nat.mul_succ, Nat.pow_add', ← Nat.div_div_eq_div_mul]
      congr 2
      omega

section fields
variable (p : ResponsePorts)

theorem statusField_responseWord : statusField (responseWord p) = p.status := by
  unfold statusField responseWord
  iterate 3 rw [BitVec.extractLsb'_append_eq_of_le (by decide)]
  exact BitVec.extractLsb'_append_eq_left

theorem highField_responseWord : highField (responseWord p) = p.high.getD 0#32 := by
  unfold highField responseWord
  iterate 3 rw [BitVec.extractLsb'_append_eq_of_le (by decide)]
  exact BitVec.extractLsb'_append_eq_right

theorem lowField_responseWord : lowField (responseWord p) = p.low.getD 0#32 := by
  unfold lowField responseWord
  iterate 2 rw [BitVec.extractLsb'_append_eq_of_le (by decide)]
  exact BitVec.extractLsb'_append_eq_right

theorem outLenField_responseWord : outLenField (responseWord p) = p.outLen.getD 0#4 := by
  unfold outLenField responseWord
  rw [BitVec.extractLsb'_append_eq_of_le (by decide)]
  exact BitVec.extractLsb'_append_eq_right

theorem outByteField_responseWord {i : Nat} {x : Byte} (h8 : p.outBytes.length ≤ 8) (h : p.outBytes[i]? = some x) :
    outByteField (responseWord p) i = x := by
  have hi : i < p.outBytes.length := (List.getElem?_eq_some_iff.1 h).1
  have hlt : decLe64 p.outBytes < 2 ^ 64 :=
    (decLe64_lt p.outBytes).trans_le (Nat.pow_le_pow_right Nat.two_pos (by omega))
  unfold outByteField responseWord
  rw [BitVec.extractLsb'_append_eq_of_add_le (by omega), extractLsb'_eq_ofNat_div, BitVec.toNat_ofNat,
    Nat.mod_eq_of_lt hlt, ofNat_decLe64_div h]

theorem shownBy_responseWord (h8 : p.outBytes.length ≤ 8) : p.shownBy (responseWord p) = true := by
  refine (shownBy_iff _ _).2 ⟨statusField_responseWord p, fun x hx => ?_, fun x hx => ?_, fun x hx => ?_,
    fun i x hx => outByteField_responseWord p h8 hx⟩
  · rw [highField_responseWord, hx, Option.getD_some]
  · rw [lowField_responseWord, hx, Option.getD_some]
  · rw [outLenField_responseWord, hx, Option.getD_some]

end fields

/-- Settles O15: `responseWord` shows the response, and `readResponse` reads only fields of valid ports. -/
theorem responseWordDeterminesTheResponse : Obligations.ResponseWordDeterminesTheResponse :=
  fun _ r hwf hpair hbytes hdone => ⟨⟨_, shownBy_responseWord r.ports (outBytes_length_le hwf)⟩,
    fun _ => readResponse_of_shownBy hwf hpair hbytes hdone⟩

end Sys2Proof.Proofs
end

section
/-! R57, R58: Validate53 in the order of its checks. R59: the split into two limbs. -/
namespace Sys2Proof.Proofs
open Sys2Proof Sys2Proof.Machine

theorem validate53_eq_validate (v : Num) : validate53 v = validate 9007199254740991 v := rfl

/-- R57, R66: beyond either bound an operand is in no range. -/
theorem not_inRange_fin {max : Nat} {q : Rat} (h : q < 0 ∨ (max : Rat) < q) : ¬inRange max (.fin q) := by
  rintro ⟨h0, h1⟩
  rcases h with hneg | hbig
  · exact absurd h0 (not_le.2 hneg)
  · exact absurd h1 (not_le.2 hbig)

/-- Settles O18: the non-finite cases are in no range, and each clause on `q` is one check of `validate`. -/
theorem validate53ChecksRangeThenIntegrality : Obligations.Validate53ChecksRangeThenIntegrality :=
  ⟨rfl, rfl, rfl, fun _ h => validate_of_not_inRange (not_inRange_fin h),
    fun _ h0 h1 hq => validate_of_not_integral ⟨h0, h1⟩ (not_exists.2 hq), fun _ => validate_natCast⟩

section split53
variable {v : Nat}

theorem split53_recombine (hv : v ≤ 9007199254740991) :
    (split53 v).1.toNat * 4294967296 + (split53 v).2.toNat = v := by
  rw [split53_high v hv, split53_low v]
  omega

theorem split53_high_le (hv : v ≤ 9007199254740991) : (split53 v).1.toNat ≤ 2097151 := by
  rw [split53_high v hv]
  omega

theorem split53_high_eq_zero_iff (hv : v ≤ 9007199254740991) : (split53 v).1 = 0#32 ↔ v ≤ 4294967295 := by
  rw [← BitVec.toNat_inj, split53_high v hv, BitVec.toNat_ofNat]
  omega

/-- Both limbs are below 2^32, so the low one is the remainder and the high one the quotient. -/
theorem eq_split53 {h l : Word} (hsum : h.toNat * 4294967296 + l.toNat = v) : (h, l) = split53 v := by
  have hl := l.isLt
  have hhigh : h.toNat = (split53 v).1.toNat := by
    rw [split53, BitVec.toNat_ofNat, Config.limbMod]
    omega
  have hlow : l.toNat = (split53 v).2.toNat := by
    rw [split53_low]
    omega
  exact Prod.ext (BitVec.eq_of_toNat_eq hhigh) (BitVec.eq_of_toNat_eq hlow)

/-- The order of the numbers is the lexicographic order of their limbs. -/
theorem split53_lt {n n' : Nat} (hlt : n < n') (hn' : n' ≤ 9007199254740991) :
    (split53 n).1.toNat < (split53 n').1.toNat ∨
      ((split53 n).1 = (split53 n').1 ∧ (split53 n).2.toNat < (split53 n').2.toNat) := by
  rw [← BitVec.toNat_inj, split53_high n (hlt.le.trans hn'), split53_high n' hn', split53_low, split53_low]
  omega

end split53

/-- Settles O19: the limbs are quotient and remainder, which are the shift and the mask, and `eq_split53` is the
uniqueness. -/
theorem splitIsTheOnlyPairOfLimbs : Obligations.SplitIsTheOnlyPairOfLimbs := by
  intro v hv
  refine ⟨split53_high v hv, split53_low v, ?_, ?_, split53_recombine hv, split53_high_le hv, fun h l => eq_split53⟩
  · rw [split53_high v hv, Nat.shiftRight_eq_div_pow]
  · rw [split53_low v]
    exact (Nat.and_two_pow_sub_one_eq_mod v 32).symm

end Sys2Proof.Proofs
end

section
/-! R60, R62: what `uintHighLow` answers, and its properties. -/
namespace Sys2Proof.Proofs
open Sys2Proof Sys2Proof.Machine

/-! ### The response of a value operation, by the verdict on its operand -/

section verdict
variable (accepted : Nat → Response) {max : Nat} {v : Num}

theorem verdict_of_not_inRange (h : ¬inRange max v) :
    verdict accepted (validate max v) = .fault .rangeViolation := by
  rw [validate_of_not_inRange h, verdict]

theorem verdict_of_not_integral (h : inRange max v) (h' : ¬integral v) :
    verdict accepted (validate max v) = .fault .nonIntegerViolation := by
  rw [validate_of_not_integral h h', verdict]

theorem verdict_natCast {n : Nat} (h : n ≤ max) :
    verdict accepted (validate max (.fin (n : Rat))) = accepted n := by
  rw [validate_natCast h, verdict]

/-- A response that is no fault comes from an accepted operand. -/
theorem verdict_eq_iff_of_ne_fault {r : Response} (hr : ∀ e, r ≠ .fault e) :
    verdict accepted (validate max v) = r ↔ ∃ n : Nat, n ≤ max ∧ v = .fin (n : Rat) ∧ accepted n = r := by
  constructor
  · intro h
    cases hv : validate max v with
    | error e => exact absurd (by rw [← h, hv, verdict]) (hr e)
    | ok n =>
      obtain ⟨hn, hfin⟩ := validate_eq_ok hv
      exact ⟨n, hn, hfin, by rw [← h, hv, verdict]⟩
  · rintro ⟨n, hn, rfl, rfl⟩
    exact verdict_natCast accepted hn

end verdict

theorem deliver_injective (s : State) : Function.Injective s.deliver := by
  intro r r' h
  have hresponses : s.responses ++ [r] = s.responses ++ [r'] := congrArg State.responses h
  exact List.singleton_inj.1 (List.append_cancel_left hresponses)

/-! ### `uintHighLow` -/

/-- The response of `uintHighLow` to an accepted integer. -/
def pairOf (n : Nat) : Response := .pair (split53 n).1 (split53 n).2

theorem pairOf_eq_pair_iff {n : Nat} {h l : Word} : pairOf n = .pair h l ↔ split53 n = (h, l) := by
  rw [pairOf, Response.pair.injEq, Prod.ext_iff]

theorem uintHighLow_eq_verdict (v : Num) (s : State) :
    uintHighLow v s = .next (s.deliver (verdict pairOf (validate53 v))) := uintHighLow_eq v s

/-- Settles O20: one clause for each answer of Validate53. -/
theorem uintHighLowAnswersThePair : Obligations.UintHighLowAnswersThePair := by
  intro value s
  have hexec : exec (.uintHighLow value) s = .next (s.deliver (verdict pairOf (validate53 (val value)))) :=
    uintHighLow_eq_verdict (val value) s
  refine ⟨fun n hn hval => ?_, fun h => ?_, fun h h' => ?_⟩
  · rw [hexec, hval, validate53_eq_validate, verdict_natCast pairOf hn]
    rfl
  · rw [hexec, validate53_eq_validate, verdict_of_not_inRange pairOf h]
  · rw [hexec, validate53_eq_validate, verdict_of_not_integral pairOf h h']

/-- The pairs `uintHighLow` can answer. -/
theorem verdict_pairOf_eq_pair_iff {v : Num} {h l : Word} :
    verdict pairOf (validate53 v) = .pair h l ↔
      ∃ n : Nat, n ≤ 9007199254740991 ∧ v = .fin (n : Rat) ∧ split53 n = (h, l) := by
  rw [validate53_eq_validate, verdict_eq_iff_of_ne_fault pairOf (r := .pair h l) nofun]
  simp only [pairOf_eq_pair_iff]

/-- A pair answered to an integer is its split, and the integer was in range. -/
theorem split53_of_verdict_eq_pair {n : Nat} {h l : Word}
    (hr : verdict pairOf (validate53 (.fin (n : Rat))) = .pair h l) :
    n ≤ 9007199254740991 ∧ split53 n = (h, l) := by
  obtain ⟨m, hm, hfin, hsplit⟩ := verdict_pairOf_eq_pair_iff.1 hr
  obtain rfl : n = m := Nat.cast_injective (Num.fin.inj hfin)
  exact ⟨hm, hsplit⟩

theorem split53_of_uintHighLow_eq {n : Nat} {s : State} {h l : Word}
    (hx : uintHighLow (.fin (n : Rat)) s = .next (s.deliver (.pair h l))) :
    n ≤ 9007199254740991 ∧ split53 n = (h, l) := by
  rw [uintHighLow_eq_verdict] at hx
  exact split53_of_verdict_eq_pair (deliver_injective s (Host.Outcome.next.inj hx))

/-- R62 (2) to (4) for one integer and its pair. -/
theorem limbs_of_split53_eq {n : Nat} {h l : Word} (hn : n ≤ 9007199254740991) (hsplit : split53 n = (h, l)) :
    h.toNat * 4294967296 + l.toNat = n ∧ l.toNat ≤ 4294967295 ∧ h.toNat ≤ 2097151 ∧
      (h = 0#32 ↔ n ≤ 4294967295) := by
  obtain ⟨rfl, rfl⟩ := Prod.ext_iff.1 hsplit
  exact ⟨split53_recombine hn, Nat.le_of_lt_succ (BitVec.isLt _), split53_high_le hn, split53_high_eq_zero_iff hn⟩

/-- R62 (5) and (6): a strict order of the limbs, so the pairs differ. -/
theorem limbs_lt_of_split53_eq {n n' : Nat} {h l h' l' : Word} (hlt : n < n') (hn' : n' ≤ 9007199254740991)
    (hsplit : split53 n = (h, l)) (hsplit' : split53 n' = (h', l')) :
    (h, l) ≠ (h', l') ∧ (h.toNat < h'.toNat ∨ (h = h' ∧ l.toNat < l'.toNat)) := by
  have hlex := split53_lt hlt hn'
  rw [hsplit, hsplit'] at hlex
  refine ⟨?_, hlex⟩
  rintro ⟨⟩
  rcases hlex with hhigh | ⟨-, hlow⟩
  · exact lt_irrefl _ hhigh
  · exact lt_irrefl _ hlow

/-- Settles O22: a pair is answered exactly where Validate53 accepts, and it is the split of the integer; the rest is
about the split. -/
theorem uintHighLowProperties : Obligations.UintHighLowProperties := by
  refine ⟨fun v s => ⟨_, uintHighLow_eq_verdict v s, ⟨?_, ?_⟩, ?_⟩, ?_⟩
  · rintro ⟨h, l, hr⟩
    obtain ⟨n, hn, hv, -⟩ := verdict_pairOf_eq_pair_iff.1 hr
    exact ⟨n, hn, hv⟩
  · rintro ⟨n, hn, hv⟩
    exact ⟨_, _, verdict_pairOf_eq_pair_iff.2 ⟨n, hn, hv, rfl⟩⟩
  · rintro n h l rfl hr
    obtain ⟨hn, hsplit⟩ := split53_of_verdict_eq_pair hr
    exact limbs_of_split53_eq hn hsplit
  · intro n n' s h l h' l' hlt hx hx'
    obtain ⟨-, hsplit⟩ := split53_of_uintHighLow_eq hx
    obtain ⟨hn', hsplit'⟩ := split53_of_uintHighLow_eq hx'
    exact limbs_lt_of_split53_eq hlt hn' hsplit hsplit'

end Sys2Proof.Proofs
end

section
/-! R61: the source's own algorithm for the two limbs, with the correction of 90_conflicts.md C3. -/
namespace Sys2Proof.Proofs
open Sys2Proof Sys2Proof.Machine

/-- The low word with bit 31 clear. -/
theorem legacySigned_of_lt {v : Nat} (h : v % 4294967296 < 2147483648) : legacySigned v = (v % 4294967296 : Nat) := by
  rw [legacySigned, BitVec.toInt_eq_toNat_of_lt (by rw [BitVec.toNat_ofNat]; omega), BitVec.toNat_ofNat]

/-- The low word with bit 31 set. -/
theorem legacySigned_of_le {v : Nat} (h : 2147483648 ≤ v % 4294967296) :
    legacySigned v = (v % 4294967296 : Nat) - 4294967296 := by
  rw [legacySigned, BitVec.toInt_eq_toNat_cond, if_neg (by rw [BitVec.toNat_ofNat]; omega), BitVec.toNat_ofNat]
  rfl

/-- The correction of C3 undoes the sign, so the low limb is the remainder. -/
theorem legacyLow_eq (v : Nat) : legacyLow v = (v % 4294967296 : Nat) := by
  rcases lt_or_ge (v % 4294967296) 2147483648 with h | h
  · rw [legacyLow, legacySigned_of_lt h, if_pos (Int.natCast_nonneg _)]
  · rw [legacyLow, legacySigned_of_le h, if_neg (by omega), Int.sub_add_cancel]

/-- Without the remainder the quotient is exact; up to 32 bits it is 0. -/
theorem legacyHigh_eq (v : Nat) : legacyHigh v = (v / 4294967296 : Nat) := by
  rw [legacyHigh, legacyLow_eq]
  split <;> omega

/-- Settles O21: the limbs of the source are remainder and quotient, as those of `split53` are. -/
theorem sourceAlgorithmGivesTheSplit : Obligations.SourceAlgorithmGivesTheSplit := by
  intro v hv
  refine ⟨?_, ?_, fun h => ⟨legacySigned_of_le h, ?_⟩, legacySigned_of_lt⟩
  · rw [legacyLow_eq, split53_low]
  · rw [legacyHigh_eq, split53_high v hv]
  · rw [legacyLow_eq]
    omega

end Sys2Proof.Proofs
end

section
/-! R64, R65: what `encodeUInt53LE` answers, its properties, and its relation to `uintHighLow`. -/
namespace Sys2Proof.Proofs
open Sys2Proof Sys2Proof.Machine

/-! ### What a value operation delivers -/

theorem next_deliver_inj {s : State} {r r' : Response} :
    (Host.Outcome.next (s.deliver r) : Host.Outcome State Fault Refusal) = .next (s.deliver r') ↔ r = r' := by
  rw [Host.Outcome.next.injEq, (deliver_injective s).eq_iff]

/-- The two conditions of a value operation, each where its check fails (R57, R58, R66). -/
theorem faults_of_eq_verdict {o : Host.Outcome State Fault Refusal} {accepted : Nat → Response} {max : Nat} {v : Num}
    {s : State} (h : o = .next (s.deliver (verdict accepted (validate max v)))) :
    (¬inRange max v → o = .next (s.deliver (.fault .rangeViolation))) ∧
      (inRange max v → ¬integral v → o = .next (s.deliver (.fault .nonIntegerViolation))) := by
  refine ⟨fun hr => ?_, fun hr hi => ?_⟩
  · rw [h, verdict_of_not_inRange accepted hr]
  · rw [h, verdict_of_not_integral accepted hr hi]

/-! ### The eight bytes -/

theorem decLe64_bytes53 {n : Nat} (hn : n ≤ 9007199254740991) : decLe64 (bytes53 n) = n := by
  rw [bytes53, decLe64_append, decLe64_le32, decLe64_le32, le32_length, split53_low, split53_high n hn]
  omega

theorem le32_injective : Function.Injective le32 := by
  intro w w' h
  apply BitVec.eq_of_toNat_eq
  rw [← decLe64_le32 w, h, decLe64_le32]

/-- The eight bytes and the pair of limbs say the same. -/
theorem bytes53_eq_append_iff {n : Nat} {h l : Word} : bytes53 n = le32 l ++ le32 h ↔ split53 n = (h, l) := by
  constructor
  · intro hbytes
    obtain ⟨hlow, hhigh⟩ := List.append_inj hbytes rfl
    exact Prod.ext (le32_injective hhigh) (le32_injective hlow)
  · intro hsplit
    rw [bytes53, hsplit]

/-- R65 (3): a byte of a sequence is a digit of its number. -/
theorem getElem?_eq_digit {B : List Byte} {i : Nat} (hi : i < B.length) :
    B[i]? = some (BitVec.ofNat 8 (decLe64 B / 2 ^ (8 * i))) := by
  rw [ofNat_decLe64_div (List.getElem?_eq_getElem hi), List.getElem?_eq_getElem hi]

/-- R65 (4): 53 bits leave three bits of byte 6 and the whole of byte 7 zero. -/
theorem top_bytes_of_decLe64_le {B : List Byte} (hlen : B.length = 8) (hB : decLe64 B ≤ 9007199254740991) :
    B[7]? = some 0x00#8 ∧ ∃ b : Byte, B[6]? = some b ∧ b.toNat ≤ 0x1F := by
  refine ⟨?_, _, getElem?_eq_digit (by omega), ?_⟩
  · rw [getElem?_eq_digit (by omega), show decLe64 B / 2 ^ (8 * 7) = 0 by omega]
  · rw [BitVec.toNat_ofNat]
    omega

/-! ### `encodeUInt53LE` -/

/-- The byte sequences `encodeUInt53LE` can answer. -/
theorem encodeUInt53LE_eq_bytes_iff {v : Num} {s : State} {B : List Byte} :
    encodeUInt53LE v s = .next (s.deliver (.bytes B)) ↔
      ∃ n : Nat, n ≤ 9007199254740991 ∧ v = .fin (n : Rat) ∧ bytes53 n = B := by
  rw [encodeUInt53LE_eq, next_deliver_inj, validate53_eq_validate, verdict_eq_iff_of_ne_fault _ (r := .bytes B) nofun]
  simp only [Response.bytes.injEq]

theorem uintHighLow_eq_pair_iff {v : Num} {s : State} {h l : Word} :
    uintHighLow v s = .next (s.deliver (.pair h l)) ↔
      ∃ n : Nat, n ≤ 9007199254740991 ∧ v = .fin (n : Rat) ∧ split53 n = (h, l) := by
  rw [uintHighLow_eq_verdict, next_deliver_inj, verdict_pairOf_eq_pair_iff]

/-- R65 (2): the bytes answered give the operand back, which was in range. -/
theorem eq_decLe64_of_encodeUInt53LE {v : Num} {s : State} {B : List Byte}
    (hx : encodeUInt53LE v s = .next (s.deliver (.bytes B))) :
    B.length = 8 ∧ decLe64 B ≤ 9007199254740991 ∧ v = .fin (decLe64 B : Rat) := by
  obtain ⟨n, hn, rfl, rfl⟩ := encodeUInt53LE_eq_bytes_iff.1 hx
  rw [decLe64_bytes53 hn]
  exact ⟨bytes53_length n, hn, rfl⟩

/-- R65 (6): the bytes are the serialised limbs of `uintHighLow`. -/
theorem uintHighLow_eq_pair_iff_encodeUInt53LE {v : Num} {s : State} {h l : Word} :
    uintHighLow v s = .next (s.deliver (.pair h l)) ↔
      h.toNat ≤ 2097151 ∧ encodeUInt53LE v s = .next (s.deliver (.bytes (le32 l ++ le32 h))) := by
  simp only [uintHighLow_eq_pair_iff, encodeUInt53LE_eq_bytes_iff, bytes53_eq_append_iff]
  refine ⟨?_, And.right⟩
  rintro ⟨n, hn, hv, hsplit⟩
  obtain ⟨-, -, hhigh, -⟩ := limbs_of_split53_eq hn hsplit
  exact ⟨hhigh, n, hn, hv, hsplit⟩

/-- R65 (6), the faults: both operations have the verdict of Validate53. -/
theorem uintHighLow_eq_fault_iff_encodeUInt53LE {v : Num} {s : State} {e : ErrorCondition} :
    uintHighLow v s = .next (s.deliver (.fault e)) ↔ encodeUInt53LE v s = .next (s.deliver (.fault e)) := by
  rw [uintHighLow_eq, encodeUInt53LE_eq, next_deliver_inj, next_deliver_inj]
  cases validate53 v with
  | error e' => exact Iff.rfl
  | ok n => exact iff_of_false nofun nofun

/-- Settles O23: the words are the limbs of `split53`, and the faults are those of Validate53. -/
theorem encodeUInt53LEAnswersEightBytes : Obligations.EncodeUInt53LEAnswersEightBytes := by
  intro value s
  have hexec : exec (.encodeUInt53LE value) s =
      .next (s.deliver (verdict (fun n => .bytes (bytes53 n)) (validate 9007199254740991 (val value)))) :=
    encodeUInt53LE_eq (val value) s
  refine ⟨fun n hn hval => ⟨_, _, split53_low n, split53_high n hn, ?_⟩, faults_of_eq_verdict hexec⟩
  rw [hexec, hval, verdict_natCast _ hn]
  rfl

/-- Settles O24: the bytes give the operand back, so they are the digits of a number of 53 bits and belong to no other
operand; `bytes53_eq_append_iff` relates them to the pair. -/
theorem encodeUInt53LEProperties : Obligations.EncodeUInt53LEProperties := by
  refine ⟨fun v s B hx => ?_, fun n hn s => ⟨bytes53 n, decLe64_bytes53 hn, ?_⟩, fun v v' s B hx hx' => ?_,
    fun _ _ _ _ => uintHighLow_eq_pair_iff_encodeUInt53LE, fun _ _ _ => uintHighLow_eq_fault_iff_encodeUInt53LE⟩
  · obtain ⟨hlen, hB, hv⟩ := eq_decLe64_of_encodeUInt53LE hx
    exact ⟨hlen, hv, fun i hi => getElem?_eq_digit (hlen ▸ hi), top_bytes_of_decLe64_le hlen hB⟩
  · exact encodeUInt53LE_eq_bytes_iff.2 ⟨n, hn, rfl, rfl⟩
  · obtain ⟨-, -, hv⟩ := eq_decLe64_of_encodeUInt53LE hx
    obtain ⟨-, -, hv'⟩ := eq_decLe64_of_encodeUInt53LE hx'
    rw [hv, hv']

end Sys2Proof.Proofs
end

section
/-! R66 to R68: Validate16, what `encodeUInt16BE` answers, and its relation to `encodeUInt53LE`. R69: the frame of the
value operations. -/
namespace Sys2Proof.Proofs
open Sys2Proof Sys2Proof.Machine

theorem validate16_eq_validate (v : Num) : validate16 v = validate 65535 v := rfl

/-- Settles O25: the checks are those of Validate53 with another upper bound. -/
theorem validate16ChecksRangeThenIntegrality : Obligations.Validate16ChecksRangeThenIntegrality :=
  ⟨rfl, rfl, rfl, fun _ h => validate_of_not_inRange (not_inRange_fin h),
    fun _ h0 h1 hq => validate_of_not_integral ⟨h0, h1⟩ (not_exists.2 hq), fun _ => validate_natCast⟩

/-! ### The two bytes -/

theorem byte_eq_of_mod_eq {m n : Nat} (h : m % 256 = n % 256) : BitVec.ofNat 8 m = BitVec.ofNat 8 n :=
  BitVec.eq_of_toNat_eq (by simpa only [BitVec.toNat_ofNat] using h)

theorem be16_ofNat (n : Nat) : be16 (BitVec.ofNat 16 n) = [BitVec.ofNat 8 (n / 256), BitVec.ofNat 8 (n % 256)] := by
  have hhigh : BitVec.ofNat 8 (n % 2 ^ 16 / 2 ^ 8) = BitVec.ofNat 8 (n / 256) := byte_eq_of_mod_eq (by omega)
  have hlow : BitVec.ofNat 8 (n % 2 ^ 16) = BitVec.ofNat 8 (n % 256) := byte_eq_of_mod_eq (by omega)
  rw [be16_eq_quotients, BitVec.toNat_ofNat, hhigh, hlow]

theorem decBe16_be16_ofNat {n : Nat} (hn : n ≤ 65535) : decBe16 (be16 (BitVec.ofNat 16 n)) = n := by
  rw [decBe16_be16, BitVec.toNat_ofNat]
  omega

/-- The low two bytes of `encodeUInt53LE`'s answer. -/
theorem bytes53_eq_cons_cons (n : Nat) :
    ∃ rest, bytes53 n = BitVec.ofNat 8 (n % 256) :: BitVec.ofNat 8 (n / 256) :: rest := by
  have hlow : BitVec.ofNat 8 (n % 4294967296) = BitVec.ofNat 8 (n % 256) := byte_eq_of_mod_eq (by omega)
  have hnext : BitVec.ofNat 8 (n % 4294967296 / 2 ^ 8) = BitVec.ofNat 8 (n / 256) := byte_eq_of_mod_eq (by omega)
  rw [bytes53, le32_eq_quotients, split53_low, hlow, hnext]
  exact ⟨_, rfl⟩

/-! ### `encodeUInt16BE` -/

/-- The byte sequences `encodeUInt16BE` can answer. -/
theorem encodeUInt16BE_eq_bytes_iff {v : Num} {s : State} {B : List Byte} :
    encodeUInt16BE v s = .next (s.deliver (.bytes B)) ↔
      ∃ n : Nat, n ≤ 65535 ∧ v = .fin (n : Rat) ∧ be16 (BitVec.ofNat 16 n) = B := by
  rw [encodeUInt16BE_eq, next_deliver_inj, validate16_eq_validate, verdict_eq_iff_of_ne_fault _ (r := .bytes B) nofun]
  simp only [Response.bytes.injEq]

/-- R68 (1), (2): two bytes, which give the operand back. -/
theorem eq_decBe16_of_encodeUInt16BE {v : Num} {s : State} {B : List Byte}
    (hx : encodeUInt16BE v s = .next (s.deliver (.bytes B))) : B.length = 2 ∧ v = .fin (decBe16 B : Rat) := by
  obtain ⟨n, hn, rfl, rfl⟩ := encodeUInt16BE_eq_bytes_iff.1 hx
  rw [decBe16_be16_ofNat hn]
  exact ⟨be16_length _, rfl⟩

/-- Settles O26: the bytes are the quotient and the remainder by 256, and the faults are those of Validate16. -/
theorem encodeUInt16BEAnswersTwoBytes : Obligations.EncodeUInt16BEAnswersTwoBytes := by
  intro value s
  have hexec : exec (.encodeUInt16BE value) s =
      .next (s.deliver (verdict (fun n => .bytes (be16 (BitVec.ofNat 16 n))) (validate 65535 (val value)))) :=
    encodeUInt16BE_eq (val value) s
  refine ⟨fun n hn hval => ?_, faults_of_eq_verdict hexec⟩
  rw [hexec, hval, verdict_natCast _ hn, be16_ofNat]

/-- Settles O27: the bytes give the operand back, so they belong to no other; and both operations' low bytes are the
remainder and the quotient by 256. -/
theorem encodeUInt16BEProperties : Obligations.EncodeUInt16BEProperties := by
  refine ⟨fun v s B => eq_decBe16_of_encodeUInt16BE, fun v v' s B hx hx' => ?_, fun n s hn => ?_⟩
  · obtain ⟨-, hv⟩ := eq_decBe16_of_encodeUInt16BE hx
    obtain ⟨-, hv'⟩ := eq_decBe16_of_encodeUInt16BE hx'
    rw [hv, hv']
  · obtain ⟨rest, hrest⟩ := bytes53_eq_cons_cons n
    refine ⟨_, _, rest, encodeUInt53LE_eq_bytes_iff.2 ⟨n, hn.trans (by decide), rfl, hrest⟩,
      encodeUInt16BE_eq_bytes_iff.2 ⟨n, hn, rfl, be16_ofNat n⟩, ?_⟩
    rw [← be16_ofNat, decBe16_be16_ofNat hn]

/-- Settles O28: a value operation only delivers its response, which the state has no part in. -/
theorem valueOperationsChangeNothingButTheResponse : Obligations.ValueOperationsChangeNothingButTheResponse := by
  intro i hi
  obtain ⟨r, hr⟩ := exec_of_ne_writeUInt64LE hi
  exact ⟨r, fun s => ⟨s.deliver r, hr s, rfl, rfl, rfl, rfl, rfl, rfl⟩⟩

end Sys2Proof.Proofs
end

section
/-! R71 to R75: what `writeUInt64LE` stores, its faults, and its relations to `encodeUInt53LE` and to itself. -/
namespace Sys2Proof.Proofs
open Sys2Proof Sys2Proof.Machine

/-! ### The window (R71) -/

/-- R11: a byte of a serialised word is a digit of it. -/
theorem le32_getElem? (w : Word) {i : Nat} (hi : i < 4) :
    (le32 w)[i]? = some (BitVec.ofNat 8 (w.toNat / 2 ^ (8 * i))) := by
  rw [getElem?_eq_digit hi, decLe64_le32]

section window
variable (b : Buffer) (offset n : Nat)

theorem writeWindow_readByte_low {i : Nat} (hi : i < 4) :
    (writeWindow b offset n).readByte (offset + i) = some (BitVec.ofNat 8 (n % 4294967296 / 2 ^ (8 * i))) := by
  rw [writeWindow_readByte, if_pos (by omega), Nat.add_sub_cancel_left, bytes53, List.getElem?_append_left hi,
    le32_getElem? _ hi, split53_low]

theorem writeWindow_readByte_high (hn : n ≤ 9007199254740991) {i : Nat} (hi : i < 4) :
    (writeWindow b offset n).readByte (offset + 4 + i) = some (BitVec.ofNat 8 (n / 4294967296 / 2 ^ (8 * i))) := by
  rw [writeWindow_readByte, if_pos (by omega), Nat.add_assoc, Nat.add_sub_cancel_left, bytes53,
    List.getElem?_append_right (Nat.le_add_right 4 i), le32_length, Nat.add_sub_cancel_left, le32_getElem? _ hi,
    split53_high n hn]

theorem writeWindow_readByte_outside {a : Nat} (h : a < offset ∨ offset + 8 ≤ a) :
    (writeWindow b offset n).readByte a = b.readByte a := by
  rw [writeWindow_readByte, if_neg (by omega)]

/-- What stood in the window before has no part in what stands there after (R73 (3)). -/
theorem writeWindow_readByte_inside (b' : Buffer) {a : Nat} (h : offset ≤ a) (h' : a < offset + 8) :
    (writeWindow b offset n).readByte a = (writeWindow b' offset n).readByte a := by
  rw [writeWindow_readByte, writeWindow_readByte, if_pos ⟨h, h'⟩, if_pos ⟨h, h'⟩]

theorem writeWindow_memRead : (writeWindow b offset n).memRead offset 8 = some (bytes53 n) := by
  rw [writeWindow_eq]
  exact memWrite_memRead b offset (bytes53 n)

end window

/-- R75 (2) for one buffer, as equal data: in canonical form a buffer is decided by what is read from it. -/
theorem writeWindow_writeWindow {b : Buffer} (hb : b.wf) {offset : Nat} (n : Nat) (hfits : offset + 8 ≤ b.capacity) :
    writeWindow (writeWindow b offset n) offset n = writeWindow b offset n := by
  have hwf : (writeWindow b offset n).wf := Buffer.wf_writeWindow hb n hfits
  refine Buffer.eq_of_readByte (Buffer.wf_writeWindow hwf n (by rwa [writeWindow_capacity])) hwf
    (writeWindow_capacity ..) fun a => ?_
  by_cases ha : offset ≤ a ∧ a < offset + 8
  · exact writeWindow_readByte_inside _ _ _ _ ha.1 ha.2
  · exact writeWindow_readByte_outside _ _ _ (by omega)

/-! ### The state after a successful write -/

/-- Of two values set under one key the later one stays. -/
theorem insertKey_insertKey {α : Type} (l : List (Nat × α)) (k : Nat) (x y : α) :
    insertKey (insertKey l k x) k y = insertKey l k y := by
  induction l with
  | nil => simp [insertKey]
  | cons c rest ih =>
    obtain ⟨j, z⟩ := c
    by_cases hlt : k < j
    · simp [insertKey, hlt]
    · by_cases heq : k = j
      · simp [insertKey, heq]
      · simp [insertKey, hlt, heq, ih]

/-- The next state of a `writeUInt64LE` that answers `Done`. -/
def afterWrite (s : State) (offset n : Nat) : State :=
  (s.setAttached (writeWindow s.attached offset n)).deliver .done

section afterWrite
variable (s : State) (offset n : Nat)

@[simp] theorem afterWrite_record : (afterWrite s offset n).record = s.record ++ [.done] := by
  rw [afterWrite, deliver_record, setAttached_record]

@[simp] theorem afterWrite_responses : (afterWrite s offset n).responses = s.responses ++ [.done] := by
  rw [afterWrite, deliver_responses, setAttached_responses]

@[simp] theorem afterWrite_queue : (afterWrite s offset n).queue = s.queue := by
  rw [afterWrite, deliver_queue, setAttached_queue]

@[simp] theorem afterWrite_memPort : (afterWrite s offset n).memPort = s.memPort := by
  rw [afterWrite, deliver_memPort, setAttached_memPort]

variable {s} {name : BufName} (hport : s.memPort = some name)
include hport

theorem afterWrite_buffers :
    (afterWrite s offset n).buffers = insertKey s.buffers name (writeWindow (s.buffer name) offset n) := by
  rw [afterWrite, deliver_buffers, setAttached_of_some _ _ hport, setBuffer_buffers, attached_of_some _ hport]

theorem afterWrite_buffer (m : BufName) : (afterWrite s offset n).buffer m =
    if m = name then writeWindow (s.buffer name) offset n else s.buffer m := by
  rw [afterWrite, deliver_buffer, setAttached_of_some _ _ hport, setBuffer_buffer, attached_of_some _ hport]

theorem afterWrite_buffer_self : (afterWrite s offset n).buffer name = writeWindow (s.buffer name) offset n := by
  rw [afterWrite_buffer _ _ hport, if_pos rfl]

theorem afterWrite_attached : (afterWrite s offset n).attached = writeWindow s.attached offset n := by
  rw [attached_of_some _ ((afterWrite_memPort ..).trans hport), afterWrite_buffer_self _ _ hport,
    attached_of_some _ hport]

end afterWrite

/-! ### What `writeUInt64LE` does -/

/-- The conditions of R71 and R72 for an answer `Done`, and the host's duty of R102: the operand is the accepted integer
`n`, and its window lies in the memory attached. -/
structure WriteSucceeds (v : Num) (offset bufLen : Nat) (s : State) (n : Nat) : Prop where
  bound   : n ≤ 9007199254740991
  operand : v = .fin (n : Rat)
  fits    : offset + 8 ≤ bufLen
  duty    : bufLen ≤ s.attached.capacity

theorem writeUInt64LE_of_error {v : Num} {offset bufLen : Nat} {s : State} {e : ErrorCondition}
    (hduty : bufLen ≤ s.attached.capacity) (hv : validate53 v = .error e) :
    writeUInt64LE v offset bufLen s = .next (s.deliver (.fault e)) := by
  rw [writeUInt64LE_eq _ _ _ _ hduty, hv]

/-- R102: a `buf_len` larger than the memory attached has no next state. -/
theorem duty_of_writeUInt64LE_next {v : Num} {offset bufLen : Nat} {s t : State}
    (h : writeUInt64LE v offset bufLen s = .next t) : bufLen ≤ s.attached.capacity := by
  by_contra hcap
  rw [writeUInt64LE, if_pos (not_le.1 hcap)] at h
  cases h

namespace WriteSucceeds
variable {v : Num} {offset bufLen n : Nat} {s : State} (w : WriteSucceeds v offset bufLen s n)
include w

theorem next : writeUInt64LE v offset bufLen s = .next (afterWrite s offset n) := by
  obtain ⟨hn, rfl, hfits, hduty⟩ := w
  rw [writeUInt64LE_eq _ _ _ _ hduty, validate53_eq_validate, validate_natCast hn]
  exact if_neg (not_lt.2 hfits)

theorem memPort : ∃ name, s.memPort = some name :=
  memPort_of_capacity ((Nat.succ_pos _).trans_le (w.fits.trans w.duty))

theorem attached : (afterWrite s offset n).attached = writeWindow s.attached offset n := by
  obtain ⟨name, hport⟩ := w.memPort
  exact afterWrite_attached offset n hport

/-- What succeeds in one state succeeds in every state in which the command is given a next state (R27). -/
theorem of_next {s' t' : State} (h : writeUInt64LE v offset bufLen s' = .next t') :
    WriteSucceeds v offset bufLen s' n ∧ t' = afterWrite s' offset n := by
  have w' : WriteSucceeds v offset bufLen s' n := { w with duty := duty_of_writeUInt64LE_next h }
  exact ⟨w', Host.Outcome.next.inj (h.symm.trans w'.next)⟩

/-- R75 (2), as equal data: the second write stores what stands there. -/
theorem buffers_of_repeat (hinv : s.Inv) :
    (afterWrite (afterWrite s offset n) offset n).buffers = (afterWrite s offset n).buffers := by
  obtain ⟨name, hport⟩ := w.memPort
  have hport' : (afterWrite s offset n).memPort = some name := (afterWrite_memPort ..).trans hport
  have hwf : (s.buffer name).wf := buffer_wf (buffers_wf_of_inv hinv) name
  have hfits : offset + 8 ≤ (s.buffer name).capacity := attached_of_some s hport ▸ w.fits.trans w.duty
  rw [afterWrite_buffers _ _ hport', afterWrite_buffer_self _ _ hport, writeWindow_writeWindow hwf n hfits,
    afterWrite_buffers _ _ hport, insertKey_insertKey]

end WriteSucceeds

/-- The host having kept its duty, either one fault is delivered and nothing else happens, or the write succeeds. -/
theorem writeUInt64LE_cases (v : Num) (offset : Nat) {bufLen : Nat} {s : State} (hduty : bufLen ≤ s.attached.capacity) :
    (∃ e, writeUInt64LE v offset bufLen s = .next (s.deliver (.fault e))) ∨
      ∃ n, WriteSucceeds v offset bufLen s n := by
  cases hv : validate53 v with
  | error e => exact .inl ⟨e, writeUInt64LE_of_error hduty hv⟩
  | ok n =>
    obtain ⟨hn, hfin⟩ := validate_eq_ok hv
    by_cases hfits : offset + 8 ≤ bufLen
    · exact .inr ⟨n, hn, hfin, hfits, hduty⟩
    · refine .inl ⟨.outOfBounds, ?_⟩
      rw [writeUInt64LE_eq _ _ _ _ hduty, hv]
      exact if_pos (not_le.1 hfits)

theorem exists_writeUInt64LE_next (v : Num) (offset : Nat) {bufLen : Nat} {s : State}
    (hduty : bufLen ≤ s.attached.capacity) : ∃ t, writeUInt64LE v offset bufLen s = .next t := by
  rcases writeUInt64LE_cases v offset hduty with ⟨e, hx⟩ | ⟨n, w⟩
  · exact ⟨_, hx⟩
  · exact ⟨_, w.next⟩

/-- The response tells a success: only a write that stored its window answers `Done`. -/
theorem writeUInt64LE_done {v : Num} {offset bufLen : Nat} {s t : State}
    (h : writeUInt64LE v offset bufLen s = .next t) (hdone : t.record = s.record ++ [.done]) :
    ∃ n, WriteSucceeds v offset bufLen s n ∧ t = afterWrite s offset n := by
  rcases writeUInt64LE_cases v offset (duty_of_writeUInt64LE_next h) with ⟨e, hx⟩ | ⟨n, w⟩
  · obtain rfl : t = s.deliver (.fault e) := Host.Outcome.next.inj (h.symm.trans hx)
    simp at hdone
  · exact ⟨n, w.of_next h⟩

/-- Settles O29: an accepted operand whose window fits is a success, and of the other cases each is one condition. -/
theorem writeUInt64LEStoresBothWords : Obligations.WriteUInt64LEStoresBothWords := by
  intro value offset bufLen s hduty
  refine ⟨fun n hn hval hfits => ?_, fun h => ?_, fun h h' => ?_, fun h h' hwindow => ?_⟩
  · have w : WriteSucceeds (val value) offset bufLen s n := ⟨hn, hval, hfits, hduty⟩
    obtain ⟨name, hport⟩ := w.memPort
    refine ⟨name, afterWrite s offset n, hport, w.next, afterWrite_responses .., afterWrite_record ..,
      afterWrite_queue .., afterWrite_memPort .., rfl, ?_⟩
    rw [afterWrite_buffer_self _ _ hport]
    refine ⟨fun i => writeWindow_readByte_low _ _ _, fun i => writeWindow_readByte_high _ _ _ hn,
      fun a => writeWindow_readByte_outside _ _ _, writeWindow_capacity .., fun m hm => ?_⟩
    rw [afterWrite_buffer _ _ hport, if_neg hm]
  · exact writeUInt64LE_of_error hduty (validate_of_not_inRange h)
  · exact writeUInt64LE_of_error hduty (validate_of_not_integral h h')
  · obtain ⟨n, hn, hval⟩ := eq_natCast_of_inRange h h'
    exact exec_writeUInt64LE_outOfBounds hduty (hval ▸ validate_natCast hn) hwindow

/-- Settles O30: the window holds the bytes of the operand's integer, whatever the state the write succeeds in. -/
theorem writeFrameAndRoundTrip : Obligations.WriteFrameAndRoundTrip := by
  intro value offset bufLen s t hx hdone
  obtain ⟨n, w, rfl⟩ := writeUInt64LE_done hx hdone
  obtain ⟨name, hport⟩ := w.memPort
  refine ⟨name, n, bytes53 n, hport, w.operand, ?_⟩
  rw [afterWrite_buffer_self _ _ hport]
  refine ⟨fun a => writeWindow_readByte_outside _ _ _, writeWindow_capacity .., writeWindow_memRead ..,
    decLe64_bytes53 w.bound, fun s' t' name' hport' hx' => ?_⟩
  obtain ⟨-, rfl⟩ := w.of_next hx'
  rw [afterWrite_buffer_self _ _ hport', writeWindow_memRead]

/-- Settles O31: a command that stores answers `Done`, and every other one only delivers its response. -/
theorem faultingCommandHasNoOtherEffect : Obligations.FaultingCommandHasNoOtherEffect := by
  intro i s t e hx hfault
  rcases exec_next hx with ⟨r, -, rfl⟩ | ⟨value, offset, bufLen, n, -, -, -, -, rfl⟩
  · obtain rfl : r = .fault e := by simpa using hfault
    exact ⟨rfl, rfl⟩
  · simp at hfault

/-- Settles O32: both operations accept the same operands, and the window holds the bytes of the operand's integer. -/
theorem writtenWindowIsTheEncodedBytes : Obligations.WrittenWindowIsTheEncodedBytes := by
  intro v offset bufLen s hduty
  have succeeds_of_bytes {B : List Byte} (hB : encodeUInt53LE v s = .next (s.deliver (.bytes B)))
      (hfits : offset + 8 ≤ bufLen) : ∃ n, WriteSucceeds v offset bufLen s n ∧ bytes53 n = B := by
    obtain ⟨n, hn, hv, hbytes⟩ := encodeUInt53LE_eq_bytes_iff.1 hB
    exact ⟨n, ⟨hn, hv, hfits, hduty⟩, hbytes⟩
  obtain ⟨t, hx⟩ := exists_writeUInt64LE_next v offset hduty
  refine ⟨t, hx, ⟨fun hdone => ?_, ?_⟩, fun B hB hfits => ?_⟩
  · obtain ⟨n, w, -⟩ := writeUInt64LE_done hx hdone
    exact ⟨⟨bytes53 n, encodeUInt53LE_eq_bytes_iff.2 ⟨n, w.bound, w.operand, rfl⟩⟩, w.fits⟩
  · rintro ⟨⟨B, hB⟩, hfits⟩
    obtain ⟨n, w, -⟩ := succeeds_of_bytes hB hfits
    obtain ⟨-, rfl⟩ := w.of_next hx
    exact afterWrite_record ..
  · obtain ⟨n, w, rfl⟩ := succeeds_of_bytes hB hfits
    obtain ⟨-, rfl⟩ := w.of_next hx
    rw [w.attached, writeWindow_memRead]

/-- Settles O33: the state after each write is `afterWrite`, so the first clause is `buffers_of_repeat`, and the second
reads one window inside and outside, over the buffer with the first write and without it. -/
theorem repeatedAndOverlappingWrites : Obligations.RepeatedAndOverlappingWrites := by
  intro v v' offset offset' bufLen bufLen' s t u u' hinv hx hdone
  obtain ⟨n, w, rfl⟩ := writeUInt64LE_done hx hdone
  refine ⟨fun hagain => ?_, fun hu hudone hu' a => ?_⟩
  · obtain ⟨-, rfl⟩ := w.of_next hagain
    exact w.buffers_of_repeat hinv
  · obtain ⟨n', w', rfl⟩ := writeUInt64LE_done hu hudone
    obtain ⟨w'', rfl⟩ := w'.of_next hu'
    rw [w'.attached, w''.attached]
    exact ⟨writeWindow_readByte_inside _ _ _ _, writeWindow_readByte_outside _ _ _⟩

end Sys2Proof.Proofs
end

section
/-! R80, R81, R91: raising a condition, the codes on the `status` port, and the class InvalidArgument. R83: which
condition is reported. -/
namespace Sys2Proof.Proofs
open Sys2Proof Sys2Proof.Machine

/-! ### Raising, codes and the class InvalidArgument -/

/-- Settles O35: `raise` is `deliver` of the fault, which leaves every field but the two lists of responses. -/
theorem raiseDeliversTheFaultAlone : Obligations.RaiseDeliversTheFaultAlone := fun e s =>
  ⟨s.deliver (.fault e), raise_eq e s, deliver_responses .., deliver_record .., rfl, deliver_buffers ..,
    deliver_memPort .., deliver_queue .., rfl⟩

/-- No condition has the code 0, which is OK. -/
theorem code_ne_zero (e : ErrorCondition) : e.code ≠ 0#2 := by
  cases e <;> decide

theorem status_eq_zero_iff (r : Response) : r.ports.status = 0#2 ↔ r.isFault = false := by
  cases r with
  | pair high low => exact iff_of_true rfl rfl
  | bytes b => exact iff_of_true rfl rfl
  | done => exact iff_of_true rfl rfl
  | fault e => exact iff_of_false (code_ne_zero e) nofun

/-- Settles O36: the table of codes, and 0 for exactly the responses that are no fault. -/
theorem statusCodesOfTheConditions : Obligations.StatusCodesOfTheConditions :=
  ⟨rfl, rfl, rfl, status_eq_zero_iff, fun _ => rfl⟩

/-- Settles O37: one case for each condition. -/
theorem invalidArgumentIsTheTwoValidationConditions : Obligations.InvalidArgumentIsTheTwoValidationConditions := by
  intro e
  cases e <;> decide

/-! ### The order of the conditions (R83) -/

section verdict
variable {accepted : Nat → Response} {max : Nat} {v : Num}

theorem verdict_eq_rangeViolation_iff (h : ∀ n, accepted n ≠ .fault .rangeViolation) :
    verdict accepted (validate max v) = .fault .rangeViolation ↔ ¬inRange max v := by
  rcases validate_cases max v with ⟨hr, hv⟩ | ⟨hr, -, hv⟩ | ⟨n, hn, rfl, hv⟩ <;> rw [hv, verdict]
  · exact iff_of_true rfl hr
  · exact iff_of_false nofun (not_not_intro hr)
  · exact iff_of_false (h n) (not_not_intro (inRange_natCast hn))

theorem verdict_eq_nonIntegerViolation_iff (h : ∀ n, accepted n ≠ .fault .nonIntegerViolation) :
    verdict accepted (validate max v) = .fault .nonIntegerViolation ↔ inRange max v ∧ ¬integral v := by
  rcases validate_cases max v with ⟨hr, hv⟩ | ⟨hr, hi, hv⟩ | ⟨n, hn, rfl, hv⟩ <;> rw [hv, verdict]
  · exact iff_of_false nofun fun hc => hr hc.1
  · exact iff_of_true rfl ⟨hr, hi⟩
  · exact iff_of_false (h n) fun hc => hc.2 (integral_natCast n)

/-- A response that is neither validation condition is the one to an accepted operand. -/
theorem verdict_const_eq_iff {r r' : Response} (h : r ≠ .fault .rangeViolation) (h' : r ≠ .fault .nonIntegerViolation) :
    verdict (fun _ => r') (validate max v) = r ↔ inRange max v ∧ integral v ∧ r' = r := by
  rcases validate_cases max v with ⟨hr, hv⟩ | ⟨hr, hi, hv⟩ | ⟨n, hn, rfl, hv⟩ <;> rw [hv, verdict]
  · exact iff_of_false h.symm fun hc => hr hc.1
  · exact iff_of_false h'.symm fun hc => hi hc.2.1
  · exact ⟨fun hc => ⟨inRange_natCast hn, integral_natCast n, hc⟩, fun hc => hc.2.2⟩

theorem verdict_ne_outOfBounds (h : ∀ n, accepted n ≠ .fault .outOfBounds) :
    verdict accepted (validate max v) ≠ .fault .outOfBounds := by
  rcases validate_cases max v with ⟨-, hv⟩ | ⟨-, -, hv⟩ | ⟨n, -, -, hv⟩ <;> rw [hv, verdict]
  · exact nofun
  · exact nofun
  · exact h n

end verdict

/-- The response of `writeUInt64LE` to an accepted integer: the bounds check of R72, which is made last. -/
def boundsVerdict (offset bufLen : Nat) : Response :=
  if bufLen < offset + 8 then .fault .outOfBounds else .done

theorem boundsVerdict_of_lt {offset bufLen : Nat} (h : bufLen < offset + 8) :
    boundsVerdict offset bufLen = .fault .outOfBounds := if_pos h

theorem boundsVerdict_of_le {offset bufLen : Nat} (h : offset + 8 ≤ bufLen) : boundsVerdict offset bufLen = .done :=
  if_neg (not_lt.2 h)

theorem boundsVerdict_eq_outOfBounds_iff (offset bufLen : Nat) :
    boundsVerdict offset bufLen = .fault .outOfBounds ↔ bufLen < offset + 8 := by
  rcases lt_or_ge bufLen (offset + 8) with h | h
  · exact iff_of_true (boundsVerdict_of_lt h) h
  · exact iff_of_false (by rw [boundsVerdict_of_le h]; exact nofun) (not_lt.2 h)

theorem boundsVerdict_eq_done_iff (offset bufLen : Nat) :
    boundsVerdict offset bufLen = .done ↔ offset + 8 ≤ bufLen := by
  rcases lt_or_ge bufLen (offset + 8) with h | h
  · exact iff_of_false (by rw [boundsVerdict_of_lt h]; exact nofun) (not_le.2 h)
  · exact iff_of_true (boundsVerdict_of_le h) h

theorem boundsVerdict_ne_fault {e : ErrorCondition} (he : e ≠ .outOfBounds) (offset bufLen : Nat) :
    boundsVerdict offset bufLen ≠ .fault e := by
  rcases lt_or_ge bufLen (offset + 8) with h | h
  · rw [boundsVerdict_of_lt h]
    exact fun hc => he (Response.fault.inj hc).symm
  · rw [boundsVerdict_of_le h]
    exact nofun

/-- The response of `writeUInt64LE`: the validation first, then the bounds. -/
theorem writeUInt64LE_record (v : Num) (offset : Nat) {bufLen : Nat} {s : State} (hduty : bufLen ≤ s.attached.capacity) :
    ∃ t, writeUInt64LE v offset bufLen s = .next t ∧
      t.record = s.record ++ [verdict (fun _ => boundsVerdict offset bufLen) (validate53 v)] := by
  rw [writeUInt64LE_eq _ _ _ _ hduty]
  cases validate53 v with
  | error e => exact ⟨_, rfl, deliver_record ..⟩
  | ok n =>
    rw [verdict]
    rcases lt_or_ge bufLen (offset + 8) with h | h
    · exact ⟨_, if_pos h, by rw [deliver_record, boundsVerdict_of_lt h]⟩
    · exact ⟨_, if_neg (not_lt.2 h), by rw [deliver_record, setAttached_record, boundsVerdict_of_le h]⟩

/-- Settles O38: each response is the verdict on the operand, and `boundsVerdict` alone can be `OutOfBounds`. -/
theorem firstConditionThatAppliesIsReported : Obligations.FirstConditionThatAppliesIsReported := by
  refine ⟨fun v offset bufLen s hduty => ?_, fun v s => ?_⟩
  · obtain ⟨t, hx, hrec⟩ := writeUInt64LE_record v offset hduty
    refine ⟨_, t, hx, hrec, ?_⟩
    rw [validate53_eq_validate, ← boundsVerdict_eq_outOfBounds_iff, ← boundsVerdict_eq_done_iff]
    exact ⟨verdict_eq_rangeViolation_iff fun _ => boundsVerdict_ne_fault (by decide) offset bufLen,
      verdict_eq_nonIntegerViolation_iff fun _ => boundsVerdict_ne_fault (by decide) offset bufLen,
      verdict_const_eq_iff nofun nofun, verdict_const_eq_iff nofun nofun⟩
  · refine ⟨_, _, _, uintHighLow_eq v s, encodeUInt53LE_eq v s, encodeUInt16BE_eq v s, ?_⟩
    rw [validate53_eq_validate, validate16_eq_validate]
    exact ⟨verdict_eq_rangeViolation_iff nofun, verdict_eq_nonIntegerViolation_iff nofun,
      verdict_eq_rangeViolation_iff nofun, verdict_eq_nonIntegerViolation_iff nofun,
      verdict_eq_rangeViolation_iff nofun, verdict_eq_nonIntegerViolation_iff nofun,
      verdict_ne_outOfBounds nofun, verdict_ne_outOfBounds nofun, verdict_ne_outOfBounds nofun⟩

end Sys2Proof.Proofs
end

section
/-! R85: the command after a fault. -/
namespace Sys2Proof.Proofs
open Sys2Proof Sys2Proof.Machine

/-- A store reads and changes the buffers and the memory port alone. -/
theorem afterStore_buffers_congr {s s' : State} (hport : s.memPort = s'.memPort) (hbufs : s.buffers = s'.buffers)
    (store : Option (Nat × Nat)) : (afterStore s store).buffers = (afterStore s' store).buffers := by
  cases store with
  | none => exact hbufs
  | some w =>
    cases hp : s'.memPort with
    | none => rw [afterStore, afterStore, setAttached_of_none _ _ (hport.trans hp), setAttached_of_none _ _ hp, hbufs]
    | some m =>
      have hbuf : s.buffer m = s'.buffer m := by simp only [State.buffer, hbufs]
      rw [afterStore, afterStore, setAttached_of_some _ _ (hport.trans hp), setAttached_of_some _ _ hp,
        attached_of_some _ (hport.trans hp), attached_of_some _ hp, setBuffer_buffers, setBuffer_buffers, hbufs, hbuf]

/-- The duty of R102 looks at a capacity alone. -/
theorem honest_congr {s s' : State} (hcap : s.attached.capacity = s'.attached.capacity) (i : Instr) :
    honest i s = honest i s' := by
  cases i with
  | uintHighLow value => rfl
  | encodeUInt53LE value => rfl
  | encodeUInt16BE value => rfl
  | writeUInt64LE value offset bufLen => rw [honest, honest, hcap]

/-- Settles O39: the fault changed the lists of responses alone, and they have no part in what the next command does. -/
theorem commandAfterAFaultIsUnaffected : Obligations.CommandAfterAFaultIsUnaffected := by
  intro i j s t e hx hfault hj
  obtain ⟨rfl, -⟩ := faultingCommandHasNoOtherEffect i s t e hx hfault
  have hj' : honest j (s.deliver (.fault e)) = true := (honest_congr (by rw [deliver_attached]) j).trans hj
  refine ⟨(effectOf (operandsOf j)).1, _, _, exec_eq_effectOf hj', exec_eq_effectOf hj, ?_, ?_, ?_⟩
  · rw [deliver_record, afterStore_record]
  · rw [deliver_record, afterStore_record]
  · exact afterStore_buffers_congr (deliver_memPort ..) (deliver_buffers ..) _

end Sys2Proof.Proofs
end

section
/-! R89 (2), R75 (4): two commands of one time whose windows share no byte. -/
namespace Sys2Proof.Proofs
open Sys2Proof Sys2Proof.Machine

/-! ### Two stores -/

theorem insertKey_comm {α : Type} {l : List (Nat × α)} (hl : keysRise l) {k k' : Nat} (hne : k ≠ k') (x x' : α) :
    insertKey (insertKey l k x) k' x' = insertKey (insertKey l k' x') k x := by
  refine eq_of_lookupKey (keysRise_insertKey (keysRise_insertKey hl k x) k' x')
    (keysRise_insertKey (keysRise_insertKey hl k' x') k x) fun m => ?_
  simp only [lookupKey_insertKey]
  by_cases hm : m = k
  · simp [hm, hne]
  · simp [hm]

/-- Windows of one buffer that share no byte: no byte is in both, so the order decides nothing (R75 (4)). -/
theorem writeWindow_comm {b : Buffer} (hb : b.wf) {offset offset' : Nat} (n n' : Nat)
    (hfits : offset + 8 ≤ b.capacity) (hfits' : offset' + 8 ≤ b.capacity)
    (hapart : offset + 8 ≤ offset' ∨ offset' + 8 ≤ offset) :
    writeWindow (writeWindow b offset n) offset' n' = writeWindow (writeWindow b offset' n') offset n := by
  refine Buffer.eq_of_readByte
    (Buffer.wf_writeWindow (Buffer.wf_writeWindow hb n hfits) n' (by rwa [writeWindow_capacity]))
    (Buffer.wf_writeWindow (Buffer.wf_writeWindow hb n' hfits') n (by rwa [writeWindow_capacity]))
    (by simp only [writeWindow_capacity]) fun a => ?_
  simp only [writeWindow_readByte]
  by_cases ha : offset ≤ a ∧ a < offset + 8
  · have ha' : ¬(offset' ≤ a ∧ a < offset' + 8) := by omega
    simp only [if_pos ha, if_neg ha']
  · simp only [if_neg ha]

/-- The state with the eight bytes of an integer stored in a named buffer. -/
def storeAt (s : State) (name : BufName) (offset n : Nat) : State :=
  s.setBuffer name (writeWindow (s.buffer name) offset n)

theorem storeAt_buffers_comm {s : State} (hinv : s.Inv) {name name' : BufName} {offset offset' : Nat} (n n' : Nat)
    (hfits : offset + 8 ≤ (s.buffer name).capacity) (hfits' : offset' + 8 ≤ (s.buffer name').capacity)
    (hapart : name = name' → offset + 8 ≤ offset' ∨ offset' + 8 ≤ offset) :
    (storeAt (storeAt s name offset n) name' offset' n').buffers =
      (storeAt (storeAt s name' offset' n') name offset n).buffers := by
  simp only [storeAt, setBuffer_buffers, setBuffer_buffer]
  by_cases hname : name = name'
  · subst hname
    have hwf : (s.buffer name).wf := buffer_wf (buffers_wf_of_inv hinv) name
    simp only [if_true, insertKey_insertKey, writeWindow_comm hwf n n' hfits hfits' (hapart rfl)]
  · rw [if_neg hname, if_neg (Ne.symm hname)]
    exact insertKey_comm hinv.1 hname _ _

/-! ### One command, with its duty kept -/

/-- A command that is given a next state had its duty kept (R102). -/
theorem honest_of_exec_next {i : Instr} {s t : State} (h : exec i s = .next t) : honest i s = true := by
  cases i with
  | uintHighLow value => rfl
  | encodeUInt53LE value => rfl
  | encodeUInt16BE value => rfl
  | writeUInt64LE value offset bufLen => exact decide_eq_true (duty_of_writeUInt64LE_next h)

theorem honest_withPort_congr {s s' : State} (h : ∀ m, (s.buffer m).capacity = (s'.buffer m).capacity) (i : Instr)
    (buf : Option BufName) : honest i (s.withPort buf) = honest i (s'.withPort buf) := by
  cases buf with
  | none => exact honest_congr rfl i
  | some m => exact honest_congr (s := s.withPort (some m)) (s' := s'.withPort (some m)) (h m) i

/-- Only a `writeUInt64LE` stores, at its offset and with its window inside `buf_len`. -/
theorem eq_writeUInt64LE_of_store {i : Instr} {offset n : Nat} (h : (effectOf (operandsOf i)).2 = some (offset, n)) :
    ∃ value bufLen, i = .writeUInt64LE value offset bufLen ∧ offset + 8 ≤ bufLen := by
  cases i with
  | uintHighLow value => cases h
  | encodeUInt53LE value => cases h
  | encodeUInt16BE value => cases h
  | writeUInt64LE value offset' bufLen =>
    cases hv : validate53 (val value) with
    | error e => simp [effectOf, operandsOf, hv] at h
    | ok m =>
      by_cases hfits : bufLen < offset' + 8
      · simp [effectOf, operandsOf, hv, hfits] at h
      · obtain ⟨rfl, -⟩ : offset' = offset ∧ m = n := by simpa [effectOf, operandsOf, hv, hfits] using h
        exact ⟨value, bufLen, rfl, not_lt.1 hfits⟩

/-- The response to a command. -/
def responseTo (w : CmdWord) : Response := (effectOf (operandsOf (decode w))).1

/-- The state after a command whose duty is kept. -/
def afterCommand (s : State) (w : CmdWord) (buf : Option BufName) : State :=
  (afterStore (s.withPort buf) (effectOf (operandsOf (decode w))).2).deliver (responseTo w)

@[simp] theorem afterCommand_record (s : State) (w : CmdWord) (buf : Option BufName) :
    (afterCommand s w buf).record = s.record ++ [responseTo w] := by
  rw [afterCommand, deliver_record, afterStore_record, withPort_record]

theorem afterCommand_buffers_congr {s s' : State} (h : s.buffers = s'.buffers) (w : CmdWord) (buf : Option BufName) :
    (afterCommand s w buf).buffers = (afterCommand s' w buf).buffers :=
  afterStore_buffers_congr (s := s.withPort buf) (s' := s'.withPort buf) rfl h _

theorem perform_command_iff {s t : State} {w : CmdWord} {buf : Option BufName} :
    perform (.command w buf) s = .next t ↔
      honest (decode w) (s.withPort buf) = true ∧ t = afterCommand s w buf := by
  constructor
  · intro h
    have hduty : honest (decode w) (s.withPort buf) = true := honest_of_exec_next h
    exact ⟨hduty, Host.Outcome.next.inj (h.symm.trans (exec_eq_effectOf hduty))⟩
  · rintro ⟨hduty, rfl⟩
    exact exec_eq_effectOf hduty

/-- A command whose duty is kept leaves the buffers alone in every state, or stores its whole window in every state. -/
theorem afterCommand_buffers_cases {s : State} {w : CmdWord} {buf : Option BufName}
    (hduty : honest (decode w) (s.withPort buf) = true) :
    (∀ u, (afterCommand u w buf).buffers = u.buffers) ∨
      ∃ name offset n, (Access.command w buf).span = some (name, offset, 8) ∧
        offset + 8 ≤ (s.buffer name).capacity ∧
        ∀ u, (afterCommand u w buf).buffers = (storeAt u name offset n).buffers := by
  cases hstore : (effectOf (operandsOf (decode w))).2 with
  | none => exact .inl fun u => by rw [afterCommand, hstore]; rfl
  | some store =>
    obtain ⟨offset, n⟩ := store
    obtain ⟨value, bufLen, hw, hfits⟩ := eq_writeUInt64LE_of_store hstore
    have hcap : offset + 8 ≤ (s.withPort buf).attached.capacity := by
      rw [hw] at hduty
      exact hfits.trans (of_decide_eq_true hduty)
    obtain ⟨name, hname⟩ := memPort_of_capacity ((Nat.succ_pos _).trans_le hcap)
    obtain rfl : buf = some name := hname
    refine .inr ⟨name, offset, n, by simp only [Access.span, hw], hcap, fun u => ?_⟩
    rw [afterCommand, hstore]
    rfl

/-! ### Two commands -/

theorem performAll_pair {a b : Access} {s t : State} :
    performAll [a, b] s = .next t ↔ ∃ u, perform a s = .next u ∧ perform b u = .next t := by
  simp only [performAll]
  cases perform a s with
  | next u =>
    simp only [Host.Outcome.next.injEq, exists_eq_left']
    cases perform b u <;> simp
  | fault r => simp
  | refused r => simp

/-- No command changes a capacity, so of two commands each has its duty kept already before the first. -/
theorem performAll_commands_iff {s t : State} {w w' : CmdWord} {buf buf' : Option BufName} :
    performAll [.command w buf, .command w' buf'] s = .next t ↔
      honest (decode w) (s.withPort buf) = true ∧ honest (decode w') (s.withPort buf') = true ∧
        t = afterCommand (afterCommand s w buf) w' buf' := by
  have hsecond (hduty : honest (decode w) (s.withPort buf) = true) :
      honest (decode w') ((afterCommand s w buf).withPort buf') = honest (decode w') (s.withPort buf') :=
    honest_withPort_congr (perform_buffer_capacity (perform_command_iff.2 ⟨hduty, rfl⟩)) _ buf'
  simp only [performAll_pair, perform_command_iff]
  constructor
  · rintro ⟨u, ⟨hduty, rfl⟩, hduty', rfl⟩
    exact ⟨hduty, hsecond hduty ▸ hduty', rfl⟩
  · rintro ⟨hduty, hduty', rfl⟩
    exact ⟨_, ⟨hduty, rfl⟩, (hsecond hduty).trans hduty', rfl⟩

/-- The windows of two commands that the host need not order share no byte (R89 (2)). -/
theorem windows_apart {w w' : CmdWord} {buf buf' : Option BufName} {name name' : BufName} {offset offset' : Nat}
    (hover : overlapping [.command w buf, .command w' buf'] = false)
    (hspan : (Access.command w buf).span = some (name, offset, 8))
    (hspan' : (Access.command w' buf').span = some (name', offset', 8)) (hname : name = name') :
    offset + 8 ≤ offset' ∨ offset' + 8 ≤ offset := by
  by_contra hmeet
  have hlt : offset < offset' + 8 ∧ offset' < offset + 8 := by omega
  have hmeets : (Access.command w buf).meets (.command w' buf') = true := by
    simp [Access.meets, Access.isCommand, hspan, hspan', spansMeet, hname, hlt]
  have hover' := overlapping_of_meets hmeets [] [] []
  rw [List.nil_append, List.nil_append, hover] at hover'
  cases hover'

theorem afterCommand_buffers_comm {s : State} (hinv : s.Inv) {w w' : CmdWord} {buf buf' : Option BufName}
    (hover : overlapping [.command w buf, .command w' buf'] = false)
    (hduty : honest (decode w) (s.withPort buf) = true) (hduty' : honest (decode w') (s.withPort buf') = true) :
    (afterCommand (afterCommand s w' buf') w buf).buffers = (afterCommand (afterCommand s w buf) w' buf').buffers := by
  rcases afterCommand_buffers_cases hduty with hkeep | ⟨name, offset, n, hspan, hfits, hstore⟩
  · rw [hkeep, afterCommand_buffers_congr (hkeep s)]
  · rcases afterCommand_buffers_cases hduty' with hkeep' | ⟨name', offset', n', hspan', hfits', hstore'⟩
    · rw [hkeep', afterCommand_buffers_congr (hkeep' s)]
    · rw [afterCommand_buffers_congr (hstore' s), hstore, afterCommand_buffers_congr (hstore s), hstore']
      exact (storeAt_buffers_comm hinv n n' hfits hfits' (windows_apart hover hspan hspan')).symm

/-- Settles O40: either order keeps both duties, by `performAll_commands_iff`, and the two stores commute. -/
theorem stepsThatDoNotOverlapCommute : Obligations.StepsThatDoNotOverlapCommute := by
  intro w w' buf buf' s t hinv hover hrun
  obtain ⟨hduty, hduty', rfl⟩ := performAll_commands_iff.1 hrun
  exact ⟨afterCommand (afterCommand s w' buf') w buf, responseTo w, responseTo w',
    performAll_commands_iff.2 ⟨hduty', hduty, rfl⟩, afterCommand_buffers_comm hinv hover hduty hduty',
    by simp, by simp⟩

end Sys2Proof.Proofs
end

section
/-! R92: the host's record of the run. -/
namespace Sys2Proof.Proofs
open Sys2Proof Sys2Proof.Machine

/-- A run is faulted where its record holds a fault (R92, R103). -/
theorem clean_eq_false_iff (s : State) : s.clean = false ↔ ∃ e, Response.fault e ∈ s.record := by
  rw [State.clean, Bool.not_eq_false', List.any_eq_true]
  constructor
  · rintro ⟨r, hr, hfault⟩
    cases r with
    | pair high low => cases hfault
    | bytes b => cases hfault
    | done => cases hfault
    | fault e => exact ⟨e, hr⟩
  · rintro ⟨e, he⟩
    exact ⟨_, he, rfl⟩

/-- What each access of an entry keeps, the entry keeps. -/
theorem performAll_keeps_of_mem {P : State → Prop} {beat : List Access}
    (hp : ∀ a ∈ beat, ∀ s t, P s → perform a s = .next t → P t) {s t : State} (hs : P s)
    (h : performAll beat s = .next t) : P t := by
  induction beat generalizing s with
  | nil => exact Host.Outcome.next.inj h ▸ hs
  | cons a rest ih =>
    rw [performAll] at h
    cases ha : perform a s with
    | next u =>
      rw [ha] at h
      exact ih (fun b hb => hp b (List.mem_cons_of_mem a hb)) (hp a List.mem_cons_self s u hs ha) h
    | fault r => rw [ha] at h; cases h
    | refused r => rw [ha] at h; cases h

/-- A command puts one response on the ports and on the record. -/
theorem exec_next_response {i : Instr} {s t : State} (h : exec i s = .next t) :
    ∃ r, t.record = s.record ++ [r] ∧ t.responses = s.responses ++ [r] := by
  rcases exec_next h with ⟨r, -, rfl⟩ | ⟨value, offset, bufLen, n, -, -, -, -, rfl⟩
  · exact ⟨r, deliver_record .., deliver_responses ..⟩
  · exact ⟨.done, afterWrite_record .., afterWrite_responses ..⟩

/-- The ports hold the responses received since the record was `old`. -/
def AnsweredSince (old : List Response) (s : State) : Prop := s.record = old ++ s.responses

/-- An access that is no reset takes no response from the ports. -/
theorem perform_answeredSince {old : List Response} {a : Access} {s t : State} (ha : a ≠ .reset)
    (hs : AnsweredSince old s) (h : perform a s = .next t) : AnsweredSince old t := by
  rcases perform_next h with ⟨word, buf, -, hx⟩ | ⟨n, addr, byte, -, -, rfl⟩ | ⟨n, addr, -, -, rfl⟩ | ⟨hreset, -⟩
  · obtain ⟨r, hrec, hresp⟩ := exec_next_response hx
    rw [AnsweredSince, hrec, hresp, ← List.append_assoc]
    exact congrArg (· ++ [r]) hs
  · exact hs
  · exact hs
  · exact absurd hreset ha

/-- An access that is no command answers nothing. -/
theorem perform_silent {old : List Response} {a : Access} {s t : State} (ha : a.isCommand = false)
    (hs : s.record = old ∧ s.responses = []) (h : perform a s = .next t) : t.record = old ∧ t.responses = [] := by
  rcases perform_next h with ⟨word, buf, rfl, -⟩ | ⟨n, addr, byte, -, -, rfl⟩ | ⟨n, addr, -, -, rfl⟩ | ⟨-, rfl⟩
  · cases ha
  · exact hs
  · exact hs
  · exact ⟨hs.1, rfl⟩

/-- A reset would take responses from the ports, but never those of its own entry: beside a command it is refused
(U11). -/
theorem performAll_record {beat : List Access} (hreset : resetInStep beat = false) {s t : State}
    (hs : s.responses = []) (h : performAll beat s = .next t) : t.record = s.record ++ t.responses := by
  rcases Bool.and_eq_false_iff.1 hreset with hno | hno
  · have hne : ∀ a ∈ beat, a ≠ .reset := by
      rintro a ha rfl
      exact List.any_eq_false.1 hno _ ha rfl
    exact performAll_keeps_of_mem (P := AnsweredSince s.record) (fun a ha _ _ => perform_answeredSince (hne a ha))
      (by rw [AnsweredSince, hs, List.append_nil]) h
  · have hsilent : ∀ a ∈ beat, a.isCommand = false := fun a ha => Bool.eq_false_iff.2 (List.any_eq_false.1 hno a ha)
    obtain ⟨hrec, hresp⟩ := performAll_keeps_of_mem (P := fun u => u.record = s.record ∧ u.responses = [])
      (fun a ha _ _ => perform_silent (hsilent a ha)) ⟨rfl, hs⟩ h
    rw [hrec, hresp, List.append_nil]

theorem step_record {s t : State} (h : step s = .next t) :
    (s.queue = [] → t.record = s.record) ∧ (s.queue ≠ [] → t.record = s.record ++ t.responses) := by
  rcases step_next h with ⟨hidle, rfl⟩ | ⟨beat, rest, hq, hreset, -, hrun⟩
  · exact ⟨fun _ => rfl, fun hne => absurd hidle hne⟩
  · exact ⟨fun hidle => absurd (hq.symm.trans hidle) (List.cons_ne_nil beat rest),
      fun _ => performAll_record (s := s.takeBeat rest) hreset (takeBeat_responses s rest) hrun⟩

theorem step_record_subset {s t : State} (h : step s = .next t) : s.record ⊆ t.record := by
  obtain ⟨hidle, hbusy⟩ := step_record h
  by_cases hq : s.queue = []
  · exact (hidle hq).symm ▸ List.Subset.refl _
  · exact (hbusy hq).symm ▸ List.subset_append_left _ _

/-- Settles O41: what stands in the record stays in it, and so does a fault. -/
theorem recordKeepsEveryFault : Obligations.RecordKeepsEveryFault := by
  intro s t h
  obtain ⟨hidle, hbusy⟩ := step_record h
  refine ⟨hidle, hbusy, fun hs => ?_, fun e he => (clean_eq_false_iff t).2 ⟨e, he⟩⟩
  obtain ⟨e, he⟩ := (clean_eq_false_iff s).1 hs
  exact (clean_eq_false_iff t).2 ⟨e, step_record_subset h he⟩

end Sys2Proof.Proofs
end

section
/-! R94, U11, R97: a reset alone in its entry, and the entries that are refused. -/
namespace Sys2Proof.Proofs
open Sys2Proof Sys2Proof.Machine

/-- Settles O44: the step is the reset alone, which leaves every field but the block and its ports. -/
theorem resetTouchesNoBuffer : Obligations.ResetTouchesNoBuffer := fun s rest h =>
  ⟨_, step_single h, takeBeat_buffers s rest, rfl, takeBeat_record s rest, takeBeat_queue s rest⟩

theorem step_of_resetInStep {s : State} {beat : List Access} {rest : List (List Access)} (hq : s.queue = beat :: rest)
    (h : resetInStep beat = true) : step s = .refused .resetDuringStep := by
  rw [step, hq]
  exact if_pos h

theorem step_of_overlapping {s : State} {beat : List Access} {rest : List (List Access)} (hq : s.queue = beat :: rest)
    (hreset : .reset ∉ beat) (h : overlapping beat = true) : step s = .refused .overlappingAccess := by
  have hno : ¬resetInStep beat = true := fun hr => hreset ((resetInStep_eq_true_iff beat).1 hr).1
  rw [step, hq]
  exact (if_neg hno).trans (if_pos h)

/-- A window belongs to a command, so beside it a reset falls in a step. -/
theorem resetInStep_of_touchesWindow {beat : List Access} {a b : Access} (ha : a ∈ beat) (h : touchesWindow a b)
    (hreset : .reset ∈ beat) : resetInStep beat = true := by
  obtain ⟨w, n, _, _, _, rfl, -⟩ := h
  exact (resetInStep_eq_true_iff beat).2 ⟨hreset, w, some n, ha⟩

/-- Settles O45: the two accesses meet, whichever of them is the command, and the reset is looked for first. -/
theorem overlapAtOneTimeIsRefused : Obligations.OverlapAtOneTimeIsRefused := by
  refine fun s beat rest hq => ⟨fun w buf hreset hcmd => ?_,
    fun l m r a b hbeat htouch => ⟨fun hreset => ?_, fun hreset => ?_⟩⟩
  · exact step_of_resetInStep hq ((resetInStep_eq_true_iff beat).2 ⟨hreset, w, buf, hcmd⟩)
  · have hmeets : a.meets b = true :=
      htouch.elim touchesWindow.meets fun h => (Access.meets_comm a b).trans h.meets
    exact step_of_overlapping hq hreset (hbeat ▸ overlapping_of_meets hmeets l m r)
  · have ha : a ∈ beat := by simp [hbeat]
    have hb : b ∈ beat := by simp [hbeat]
    exact step_of_resetInStep hq <| htouch.elim (resetInStep_of_touchesWindow ha · hreset)
      (resetInStep_of_touchesWindow hb · hreset)

end Sys2Proof.Proofs
end

section
/-! R98: which commands fault. R102, U5: a false `buf_len`. R105: every command ends with one response. -/
namespace Sys2Proof.Proofs
open Sys2Proof Sys2Proof.Machine

/-! ### Which responses are faults (R98) -/

/-- A response is no fault where the operand is accepted and the response to what is accepted is no fault. -/
theorem verdict_isFault_eq_false_iff {accepted : Nat → Response} {P : Prop} (h : ∀ n, (accepted n).isFault = false ↔ P)
    (max : Nat) (v : Num) :
    (verdict accepted (validate max v)).isFault = false ↔ inRange max v ∧ integral v ∧ P := by
  rcases validate_cases max v with ⟨hr, hv⟩ | ⟨-, hi, hv⟩ | ⟨n, hn, rfl, hv⟩ <;> rw [hv, verdict]
  · exact iff_of_false nofun fun hc => hr hc.1
  · exact iff_of_false nofun fun hc => hi hc.2.1
  · rw [h n]
    exact ⟨fun hP => ⟨inRange_natCast hn, integral_natCast n, hP⟩, fun hc => hc.2.2⟩

/-- A value operation has no condition beyond those on its operand. -/
theorem verdict_isFault_eq_false_iff_of_forall {accepted : Nat → Response} (h : ∀ n, (accepted n).isFault = false)
    (max : Nat) (v : Num) : (verdict accepted (validate max v)).isFault = false ↔ inRange max v ∧ integral v := by
  rw [verdict_isFault_eq_false_iff (fun n => iff_of_true (h n) trivial), and_true]

theorem boundsVerdict_isFault_eq_false_iff (offset bufLen : Nat) :
    (boundsVerdict offset bufLen).isFault = false ↔ offset + 8 ≤ bufLen := by
  rcases lt_or_ge bufLen (offset + 8) with h | h
  · exact iff_of_false (by rw [boundsVerdict_of_lt h]; exact nofun) (not_le.2 h)
  · exact iff_of_true (by rw [boundsVerdict_of_le h]; rfl) h

theorem effectOf_writeUInt64LE_fst (value : ValueWord) (offset bufLen : Nat) :
    (effectOf (operandsOf (.writeUInt64LE value offset bufLen))).1 =
      verdict (fun _ => boundsVerdict offset bufLen) (validate53 (val value)) := by
  cases hv : validate53 (val value) with
  | error e => simp [effectOf, operandsOf, hv, verdict]
  | ok n => by_cases h : bufLen < offset + 8 <;> simp [effectOf, operandsOf, hv, verdict, boundsVerdict, h]

/-- R98, as a fact about the response alone. -/
theorem effectOf_isFault_eq_false_iff (i : Instr) :
    (effectOf (operandsOf i)).1.isFault = false ↔ conditionsMet i := by
  cases i with
  | uintHighLow value => exact verdict_isFault_eq_false_iff_of_forall (fun _ => rfl) Config.valueMax (val value)
  | encodeUInt53LE value => exact verdict_isFault_eq_false_iff_of_forall (fun _ => rfl) Config.valueMax (val value)
  | encodeUInt16BE value => exact verdict_isFault_eq_false_iff_of_forall (fun _ => rfl) Config.u16Max (val value)
  | writeUInt64LE value offset bufLen =>
    rw [effectOf_writeUInt64LE_fst]
    exact verdict_isFault_eq_false_iff (fun _ => boundsVerdict_isFault_eq_false_iff offset bufLen) Config.valueMax
      (val value)

/-- Settles O46: the response is the one its operands give, and it is no fault exactly where the conditions are met. -/
theorem commandThatMeetsTheConditionsCannotFault : Obligations.CommandThatMeetsTheConditionsCannotFault := fun i _ h =>
  ⟨_, _, exec_eq_effectOf h, by rw [deliver_record, afterStore_record], effectOf_isFault_eq_false_iff i⟩

/-! ### How a command ends (R102, R105) -/

theorem writeUInt64LE_of_capacity_lt (v : Num) (offset : Nat) {bufLen : Nat} {s : State}
    (h : s.attached.capacity < bufLen) : writeUInt64LE v offset bufLen s = .refused .falseCapacity := if_pos h

/-- Settles O47: the host's duty is checked before the operand. -/
theorem falseCapacityIsRefused : Obligations.FalseCapacityIsRefused := fun value offset _ _ h =>
  writeUInt64LE_of_capacity_lt (val value) offset h

/-- A command neither plans nor unplans an access, and leaves the memory port as the host set it. -/
theorem exec_next_queue_memPort {i : Instr} {s t : State} (h : exec i s = .next t) :
    t.queue = s.queue ∧ t.memPort = s.memPort := by
  rcases exec_next h with ⟨r, -, rfl⟩ | ⟨value, offset, bufLen, n, -, -, -, -, rfl⟩
  · exact ⟨deliver_queue .., deliver_memPort ..⟩
  · exact ⟨afterWrite_queue .., afterWrite_memPort ..⟩

/-- Settles O48: a command whose duty is kept is given a next state, which has one response more; no command raises a
fault of the machine. -/
theorem everyCommandEndsWithOneResponse : Obligations.EveryCommandEndsWithOneResponse := by
  refine ⟨fun i s hduty => ?_, exec_not_fault⟩
  obtain ⟨t, ht⟩ := exec_of_honest hduty
  obtain ⟨r, hrec, hresp⟩ := exec_next_response ht
  exact ⟨r, t, ht, hrec, hresp, exec_next_queue_memPort ht⟩

end Sys2Proof.Proofs
end

section
/-! R104: the step of one command, and the command presented from outside. R40 (3): the host between commands. -/
namespace Sys2Proof.Proofs
open Sys2Proof Sys2Proof.Machine

/-- Settles O49: by `step_command`; the state written out is the entry taken and the buffer put on the port. -/
theorem stepRunsTheDecodedCommand : Obligations.StepRunsTheDecodedCommand := fun _ _ _ _ h => step_command h

/-! ### Presenting a command -/

/-- Where the loader attaches no buffer, the command keeps the host's duty on any memory; where it does, the command's
duty is the capacity the loader asks for. -/
theorem portFor_cases (word : CmdWord) :
    (portFor word = none ∧ ∀ s, honest (decode word) s = true) ∨
      ∃ n cap, portFor word = some (n, cap) ∧ ∀ s, honest (decode word) s = decide (cap ≤ s.attached.capacity) := by
  unfold portFor
  cases decode word with
  | uintHighLow value => exact .inl ⟨rfl, fun _ => rfl⟩
  | encodeUInt53LE value => exact .inl ⟨rfl, fun _ => rfl⟩
  | encodeUInt16BE value => exact .inl ⟨rfl, fun _ => rfl⟩
  | writeUInt64LE value offset bufLen => exact .inr ⟨loaderBuffer, bufLen, rfl, fun _ => rfl⟩

theorem present_of_portFor_none {word : CmdWord} (h : portFor word = none) (s : State) :
    s.present word = { s with queue := [.command word none] :: s.queue } := by
  rw [State.present, h]

theorem present_of_portFor_some {word : CmdWord} {n : BufName} {cap : Nat} (h : portFor word = some (n, cap))
    (s : State) : s.present word =
      { s.ensureCapacity n cap with queue := [.command word (some n)] :: s.queue } := by
  rw [State.present, h, ← ensureCapacity_queue s n cap]

/-- The pattern is the word itself where it fits in the bits given. -/
theorem withFetchWord_eq_present {nbits w : Nat} (h : w < 2 ^ nbits) (s : State) :
    s.withFetchWord nbits w = s.present (BitVec.ofNat 130 w) := by
  rw [State.withFetchWord, Nat.mod_eq_of_lt h]

/-- Settles O50: the state that the command runs on is the one before the word was presented, with the loader's buffer
lengthened where the command needs it. -/
theorem presentedWordRunsNext : Obligations.PresentedWordRunsNext := by
  intro s nbits w hw _
  rw [withFetchWord_eq_present hw]
  rcases portFor_cases (BitVec.ofNat 130 w) with ⟨hport, hduty⟩ | ⟨n, cap, hport, hduty⟩
  · rw [present_of_portFor_none hport]
    exact ⟨_, step_command rfl, hduty _, rfl, rfl, rfl, fun _ _ => rfl⟩
  · rw [present_of_portFor_some hport]
    refine ⟨_, step_command rfl, ?_, rfl, ensureCapacity_record s n cap, rfl,
      fun m a => ensureCapacity_readByte s n m cap a⟩
    rw [hduty]
    exact decide_eq_true (ensureCapacity_le s n cap)

/-! ### The host's own accesses -/

theorem perform_hostWrite_of_lt {s : State} {n : BufName} {addr : Nat} (h : addr < (s.buffer n).capacity) (byte : Byte) :
    perform (.hostWrite n addr byte) s = .next (s.setBuffer n ((s.buffer n).writeByte addr byte)) := if_pos h

theorem perform_hostWrite_of_le {s : State} {n : BufName} {addr : Nat} (h : (s.buffer n).capacity ≤ addr) (byte : Byte) :
    perform (.hostWrite n addr byte) s = .fault .addressOutsideBuffer := if_neg (not_lt.2 h)

theorem perform_hostRead_of_lt {s : State} {n : BufName} {addr : Nat} (h : addr < (s.buffer n).capacity) :
    perform (.hostRead n addr) s = .next s := if_pos h

theorem perform_hostRead_of_le {s : State} {n : BufName} {addr : Nat} (h : (s.buffer n).capacity ≤ addr) :
    perform (.hostRead n addr) s = .fault .addressOutsideBuffer := if_neg (not_lt.2 h)

theorem step_of_queue_nil {s : State} (h : s.queue = []) : step s = .next s := by
  rw [step, h]

/-- Settles O51: the step is the host's one access, on the state with its entry taken. -/
theorem betweenCommandsOnlyTheHostActs : Obligations.BetweenCommandsOnlyTheHostActs := by
  refine fun s => ⟨step_of_queue_nil, fun n addr byte rest hq => ?_, fun n addr rest hq => ?_⟩
  · rw [step_single hq]
    refine ⟨fun haddr => ⟨_, perform_hostWrite_of_lt (s := s.takeBeat rest) haddr byte, rfl, rfl, ?_, fun a ha => ?_,
      fun m hm => ?_⟩, fun haddr => perform_hostWrite_of_le (s := s.takeBeat rest) haddr byte⟩
    · rw [setBuffer_buffer_self, readByte_writeByte, if_pos rfl]
    · rw [setBuffer_buffer_self, readByte_writeByte, if_neg ha, takeBeat_buffer]
    · rw [setBuffer_buffer, if_neg hm, takeBeat_buffer]
  · rw [step_single hq]
    exact ⟨fun haddr => ⟨_, perform_hostRead_of_lt (s := s.takeBeat rest) haddr, rfl, rfl⟩,
      perform_hostRead_of_le (s := s.takeBeat rest)⟩

end Sys2Proof.Proofs
end

section
/-! R103, R104: the run of a dutiful host, and of a program loaded. -/
namespace Sys2Proof.Proofs
open Sys2Proof Sys2Proof.Machine

/-! ### A dutiful host -/

/-- No capacity changes on the way, so the duties left are those that were planned. -/
theorem dutiful_of_queue_eq_cons {s t : State} {beat : List Access} (h : s.dutiful) (hq : s.queue = beat :: t.queue)
    (hcap : ∀ m, (t.buffer m).capacity = (s.buffer m).capacity) : t.dutiful := by
  intro b hb
  obtain ⟨word, buf, hbeat, hduty⟩ := h b (hq ▸ List.mem_cons_of_mem beat hb)
  exact ⟨word, buf, hbeat, (honest_withPort_congr hcap (decode word) buf).trans hduty⟩

/-- One step of a dutiful host: a command runs and is answered, and the host is dutiful still. -/
theorem step_of_dutiful {s : State} {beat : List Access} {rest : List (List Access)} (h : s.dutiful)
    (hq : s.queue = beat :: rest) :
    ∃ t r, step s = .next t ∧ t.dutiful ∧ t.queue = rest ∧ t.record = s.record ++ [r] ∧
      ∀ m, (t.buffer m).capacity = (s.buffer m).capacity := by
  obtain ⟨word, buf, rfl, hduty⟩ := h beat (hq ▸ List.mem_cons_self)
  have hduty' : honest (decode word) ((s.takeBeat rest).withPort buf) = true :=
    (honest_withPort_congr (fun _ => rfl) (decode word) buf).trans hduty
  obtain ⟨t, ht⟩ := exec_of_honest hduty'
  obtain ⟨r, hrec, -⟩ := exec_next_response ht
  obtain ⟨hrest, -⟩ := exec_next_queue_memPort ht
  have hcap : ∀ m, (t.buffer m).capacity = (s.buffer m).capacity := fun m => exec_buffer_capacity ht m
  obtain rfl : t.queue = rest := hrest
  exact ⟨t, r, (step_command hq).trans ht, dutiful_of_queue_eq_cons h hq hcap, rfl, hrec, hcap⟩

/-- Settles O52: by induction on what the host has left to do, with `step_of_dutiful` at each step. -/
theorem dutifulHostRunsToItsEnd : Obligations.DutifulHostRunsToItsEnd := by
  intro s h
  generalize hq : s.queue = queue
  induction queue generalizing s with
  | nil => exact ⟨s, [], rfl, hq, (List.append_nil _).symm, rfl, fun _ => rfl⟩
  | cons beat rest ih =>
    obtain ⟨u, r, hstep, hu, hrest, hrec, hcap⟩ := step_of_dutiful h hq
    obtain ⟨t, rs, hrun, hend, hrec', hlen, hcap'⟩ := ih u hu hrest
    refine ⟨t, r :: rs, (run_core_succ rest.length hstep).trans hrun, hend, ?_, congrArg (· + 1) hlen,
      fun m => (hcap' m).trans (hcap m)⟩
    rw [hrec', hrec, List.append_assoc, List.singleton_append]

/-! ### A program -/

theorem load_queue (p : Program) : p.load.queue =
    p.lines.map fun l => [.command (encode (l.instr fun n => (p.load.buffer n).capacity)) l.port] := rfl

/-- What holds of 0 and of every capacity listed, holds of every buffer's. -/
theorem buffer_capacity_lt {s : State} {bound : Nat} (h0 : 0 < bound) (h : ∀ c ∈ s.buffers, c.2.capacity < bound)
    (n : BufName) : (s.buffer n).capacity < bound := by
  unfold State.buffer
  split
  · rename_i b hb
    exact h _ (mem_of_lookupKey hb)
  · exact h0

/-- A line states the capacity of the buffer it names, so it keeps the host's duty by itself (R29, R102). -/
theorem honest_lineInstr (l : Line) (s : State) :
    honest (l.instr fun n => (s.buffer n).capacity) (s.withPort l.port) = true := by
  cases l with
  | uintHighLow value => rfl
  | splitUnsigned53 value => rfl
  | encodeUInt53LE value => rfl
  | encodeUInt16BE value => rfl
  | writeUInt64LE value n offset => cases offset <;> exact decide_eq_true le_rfl

/-- The ports can carry a line whose offset and capacities fit them (R49, R50); an omitted offset fits. -/
theorem lineInstr_wellFormed {capacityOf : BufName → Nat} (hcap : ∀ n, capacityOf n < 2 ^ 32) {l : Line}
    (hoffset : ∀ value n offset, l = .writeUInt64LE value n (some offset) → offset < 2 ^ 32) :
    (l.instr capacityOf).wellFormed = true := by
  cases l with
  | uintHighLow value => rfl
  | splitUnsigned53 value => rfl
  | encodeUInt53LE value => rfl
  | encodeUInt16BE value => rfl
  | writeUInt64LE value n offset =>
    cases offset with
    | none => exact (wellFormed_writeUInt64LE ..).2 ⟨by decide, hcap n⟩
    | some offset => exact (wellFormed_writeUInt64LE ..).2 ⟨hoffset value n offset rfl, hcap n⟩

/-- A program whose lines fit the ports is loaded as the plan of a dutiful host. -/
theorem load_dutiful {p : Program} (hcap : ∀ c ∈ p.buffers, c.2.capacity < 2 ^ 32)
    (hoffset : ∀ value n offset, Line.writeUInt64LE value n (some offset) ∈ p.lines → offset < 2 ^ 32) :
    p.load.dutiful := by
  intro beat hbeat
  rw [load_queue] at hbeat
  obtain ⟨l, hl, rfl⟩ := List.mem_map.1 hbeat
  have hwf : (l.instr fun n => (p.load.buffer n).capacity).wellFormed = true :=
    lineInstr_wellFormed (buffer_capacity_lt (s := p.load) (by decide) hcap)
      fun value n offset h => hoffset value n offset (h ▸ hl)
  refine ⟨_, _, rfl, ?_⟩
  rw [decodeOfEncodeGivesTheInstruction _ hwf]
  exact honest_lineInstr l p.load

/-- Settles O53: the program is loaded as the plan of a dutiful host, which runs to its end by O52; the record starts
empty. -/
theorem everyLoadedListOfLinesEnds : Obligations.EveryLoadedListOfLinesEnds := by
  intro p hcap hoffset
  obtain ⟨t, rs, hrun, hend, hrec, hlen, -⟩ := dutifulHostRunsToItsEnd p.load (load_dutiful hcap hoffset)
  have hlines : p.load.queue.length = p.lines.length := by rw [load_queue, List.length_map]
  have hrec' : t.record = rs := hrec
  refine ⟨t, hlines ▸ hrun, hend, ?_, clean_eq_false_iff t⟩
  rw [hrec', hlen, hlines]

end Sys2Proof.Proofs
end

section
/-! U3: what an `OutOfBounds` condition may leave in BUF where `OOB_PARTIAL` is true (log entry 5). -/
namespace Sys2Proof.Proofs
open Sys2Proof Sys2Proof.Machine

section oobBuffer
variable (landed : Nat → Bool) (b : Buffer) (offset bufLen n : Nat)

/-- Only a byte of the low word changes, only where there is room for that word, and only as the free value says. -/
theorem oobBuffer_readByte (a : Nat) : (oobBuffer landed b offset bufLen n).readByte a =
    if offset + 4 ≤ bufLen ∧ offset ≤ a ∧ a < offset + 4 ∧ landed (a - offset) = true
    then (le32 (split53 n).2)[a - offset]? else b.readByte a := by
  rw [oobBuffer, Config.highOff]
  by_cases hroom : offset + 4 ≤ bufLen
  · rw [if_pos hroom, memWriteSome_readByte]
    exact if_congr ⟨fun h => ⟨hroom, h⟩, fun h => h.2⟩ rfl rfl
  · rw [if_neg hroom, if_neg fun h => hroom h.1]

theorem oobBuffer_readByte_low {i : Nat} (hi : i < 4) :
    (oobBuffer landed b offset bufLen n).readByte (offset + i) = b.readByte (offset + i) ∨
      offset + 4 ≤ bufLen ∧ (oobBuffer landed b offset bufLen n).readByte (offset + i) =
        some (BitVec.ofNat 8 (n % 4294967296 / 2 ^ (8 * i))) := by
  rw [oobBuffer_readByte]
  split
  · rename_i h
    exact .inr ⟨h.1, by rw [Nat.add_sub_cancel_left, le32_getElem? _ hi, split53_low]⟩
  · exact .inl rfl

theorem oobBuffer_readByte_outside {a : Nat} (h : a < offset ∨ offset + 4 ≤ a) :
    (oobBuffer landed b offset bufLen n).readByte a = b.readByte a := by
  rw [oobBuffer_readByte, if_neg (by omega)]

end oobBuffer

/-- The next state of an `OutOfBounds` condition where `OOB_PARTIAL` is true. -/
def afterPartialWrite (s : State) (offset bufLen n : Nat) : State :=
  (s.setAttached (oobBuffer (Config.lowByteLands s.record.length) s.attached offset bufLen n)).deliver
    (.fault .outOfBounds)

theorem raiseOutOfBounds_partial (offset bufLen n : Nat) (s : State) :
    raiseOutOfBounds true offset bufLen n s = .next (afterPartialWrite s offset bufLen n) := rfl

section afterPartialWrite
variable (s : State) (offset bufLen n : Nat)

@[simp] theorem afterPartialWrite_record :
    (afterPartialWrite s offset bufLen n).record = s.record ++ [.fault .outOfBounds] := by
  rw [afterPartialWrite, deliver_record, setAttached_record]

variable {s} {name : BufName} (hport : s.memPort = some name)
include hport

theorem afterPartialWrite_buffer (m : BufName) : (afterPartialWrite s offset bufLen n).buffer m =
    if m = name then oobBuffer (Config.lowByteLands s.record.length) (s.buffer name) offset bufLen n
    else s.buffer m := by
  rw [afterPartialWrite, deliver_buffer, setAttached_of_some _ _ hport, setBuffer_buffer, attached_of_some _ hport]

theorem afterPartialWrite_buffer_self : (afterPartialWrite s offset bufLen n).buffer name =
    oobBuffer (Config.lowByteLands s.record.length) (s.buffer name) offset bufLen n := by
  rw [afterPartialWrite_buffer _ _ _ hport, if_pos rfl]

end afterPartialWrite

/-- Settles O34: BUF becomes `oobBuffer`, whose bytes are bounded for every choice of which of them landed. -/
theorem partialWriteUnderOobPartial : Obligations.PartialWriteUnderOobPartial := by
  intro offset bufLen n s name hport
  refine ⟨_, raiseOutOfBounds_partial offset bufLen n s, afterPartialWrite_record .., ?_⟩
  rw [afterPartialWrite_buffer_self _ _ _ hport]
  refine ⟨fun i => oobBuffer_readByte_low _ _ _ _ _, fun a => oobBuffer_readByte_outside _ _ _ _ _, fun m hm => ?_⟩
  rw [afterPartialWrite_buffer _ _ _ hport, if_neg hm]

end Sys2Proof.Proofs
end
